-- ==== Sys2Proof/Word.lean ====
section
/-! DEFINITION. The word types of OWM-GE (`spec/00_scope.md` R9: every register value is an unsigned bit-vector of its stated width). -/

namespace Sys2Proof

/-- An 8-bit register, glyph code or immediate. -/
abbrev Byte := BitVec 8

/-- A 16-bit value: the command word (R80) or the Reading `RAW` (R32). -/
abbrev Half := BitVec 16

/-- A 32-bit value: what one host access moves (R63, R64), `MAG` (R33), `BCD` (R38). -/
abbrev Word := BitVec 32

end Sys2Proof
end

