-- ==== Sys2Proof/Machine/Trace.lean ====
section
/-! DEFINITION. The events of the two traces: the line trace (`spec/40_bit_primitives.md` R100) and the sink trace (`spec/20_memory.md` R75). -/

namespace Sys2Proof.Machine

/-- One event of the line trace (R100): what a bus analyser sees on the pin, and what the block sees of it. -/
inductive LineEvent where
  /-- `DriveLow()`: the block drives the line low. -/
  | low
  /-- `Release()`: the block lets the line go. -/
  | rel
  /-- `Wait(n)`: `n` microseconds pass. -/
  | wait (n : Nat)
  /-- `Sense()` answered `v`: `true` for a high line, `false` for a low one (R76). -/
  | sample (v : Bool)
deriving DecidableEq, Repr

/-- One event `PUT p c` of the sink trace (R75): glyph code `code` for display position `pos`. -/
structure SinkEvent where
  pos  : Fin 8
  code : Byte
deriving DecidableEq, Repr

end Sys2Proof.Machine
end

