-- ==== Sys2Proof/Config.lean ====
section
/-! DEFINITION. The configuration record `Cfg` (`spec/00_scope.md` R6 to R8), its constraints and defaults, and the free values
the spec leaves open. Time is counted in whole microseconds (R7). -/

namespace Sys2Proof

/-- The parameters of an instance of the block (R7, R8). They are fixed before reset and never change while the block runs (R194). -/
structure Cfg where
  /-- `T_W1L`: low time of a write slot carrying a one. -/
  tW1L : Nat
  /-- `T_W0L`: low time of a write slot carrying a zero. -/
  tW0L : Nat
  /-- `T_WSLOT`: total length of a write slot. -/
  tWslot : Nat
  /-- `T_RINIT`: low time that opens a read slot. -/
  tRinit : Nat
  /-- `T_RSAMP`: wait from release to the sample. -/
  tRsamp : Nat
  /-- `T_RPAD`: wait from the sample to the end of the read slot. -/
  tRpad : Nat
  /-- `T_RSTL`: low time of the reset pulse. -/
  tRstl : Nat
  /-- `T_PDS`: wait from release to the presence sample. -/
  tPds : Nat
  /-- `T_RSTT`: wait from the presence sample to the end of the reset cycle. -/
  tRstt : Nat
  /-- `GLYPH`: the glyph table (R36): 0 to 9 the plain digits, 10 to 19 the digits with point, 20 minus, 21 blank. -/
  glyph : Vector Byte 22
  /-- `UNIT2_OFFSET`: the offset of the second unit system. -/
  unit2Offset : Int
  /-- `BLANK_DP_ZERO`: whether blanking also blanks a leading zero that carries the point (R152). -/
  blankDpZero : Bool
  /-- `WEDGE_HANGS`: whether a bus operation begun on a line that reads low has no step (R8, R133). -/
  wedgeHangs : Bool
  /-- `F_CLK`: `none` where it is left unspecified. No rule reads it (R193). -/
  fClk : Option Nat
deriving DecidableEq, Repr

namespace Cfg

/-- The default glyph table (`spec/93_implementation_defined.md` G1). PRESUMED: the spec marks it general knowledge (log entry 9). -/
def defaultGlyph : Vector Byte 22 :=
  #v[0x3F, 0x06, 0x5B, 0x4F, 0x66, 0x6D, 0x7D, 0x07, 0x7F, 0x6F,
     0xBF, 0x86, 0xDB, 0xCF, 0xE6, 0xED, 0xFD, 0x87, 0xFF, 0xEF,
     0x40, 0x00]

/-- The defaults of R7 and R8. PRESUMED for `glyph` and `unit2Offset` (log entry 9); `fClk` is unspecified (log entry 10). -/
def default : Cfg where
  tW1L := 14
  tW0L := 60
  tWslot := 61
  tRinit := 1
  tRsamp := 13
  tRpad := 47
  tRstl := 480
  tPds := 85
  tRstt := 395
  glyph := defaultGlyph
  unit2Offset := 32
  blankDpZero := false
  wedgeHangs := false
  fClk := none

/-- The constraints of R7, R8 and R37: a write slot is long enough for its low time, the 22 glyph codes are pairwise different, the
offset lies in its range, and a clock frequency that is given is positive. -/
def wf (c : Cfg) : Bool :=
  decide (c.tW1L < c.tW0L ∧ c.tW0L ≤ c.tWslot ∧ c.glyph.toList.Nodup ∧
    -100000 ≤ c.unit2Offset ∧ c.unit2Offset ≤ 100000 ∧ c.fClk ≠ some 0)

end Cfg

/-- FREE VALUE: the level of the released line, as the bus environment gives it from the whole line trace so far (R13, R101: the
oracle `env : LT → Bool`). Used where State lists no answer of the environment's (log entry 4). -/
opaque Config.env : List Machine.LineEvent → Bool

/-- FREE VALUE: what a host read of a result register returns while an operation runs (R30: "unspecified values"); the argument is
the number of reads the host has made (log entry 6). -/
opaque Config.freeRead : Nat → Word

/-- FREE VALUE: the codes an overflowing `ENC` leaves in `SEQ` (R156: "unspecified values"); the argument is the State counter
`draws` (log entry 7). -/
opaque Config.freeGlyph : Nat → Byte

end Sys2Proof
end

