-- ==== Sys2Proof/Machine/State.lean ====
section
/-! DEFINITION. The state of the block (`spec/10_state.md` R20), as plain data: the host-visible registers (R21, R25), the hidden
registers (R38), the two traces, the configuration, and what the outside world has still to do. -/

namespace Sys2Proof.Machine

/-- What the outside world can do to the block between two of its primitives. -/
inductive Input where
  /-- `RegWrite(a, v)` by the host (R61, R62, R64). -/
  | write (a : Nat) (v : Word)
  /-- `RegRead(a)` by the host (R63). -/
  | read (a : Nat)
  /-- The platform asserts the block's reset input (R190, R192). -/
  | reset
  /-- A device begins (`true`) or ends (`false`) holding the line low (R133). -/
  | hold (low : Bool)
  /-- The host statement `DELAY n ms`: time passes with no access to the block (R96, R211). -/
  | delay (ms : Nat)
deriving DecidableEq, Repr

/-- An input and when it lands. `after = some n`: after `n` further primitives of the running operation, counted from the input before
it, or at once while no operation runs. `after = none`: when the host has seen `BUSY = 0` (the `WAITIDLE` of R96). DESIGN CHOICE (log
entry 2). -/
structure Arrival where
  after : Option Nat
  input : Input
deriving DecidableEq, Repr

/-- One value a host read returned. -/
structure ReadBack where
  reg   : Nat
  value : Word
deriving DecidableEq, Repr

/-- The state of the block and of its surroundings. Bits of `STATUS` are Booleans; `State.statusBits` is the register (R25). -/
structure State where
  /-- The configuration; no step changes it (R194). -/
  cfg : Cfg
  /-- `STATUS.BUSY` (R26). -/
  busy : Bool
  /-- `STATUS.PRES` (R27). -/
  pres : Bool
  /-- `STATUS.RBIT` (R28). -/
  rbit : Bool
  /-- `STATUS.OVF` (R173). -/
  ovf : Bool
  /-- `STATUS.ILL` (R175). -/
  ill : Bool
  /-- `STATUS.CERR` (R174). -/
  cerr : Bool
  /-- `RDATA` (R31). -/
  rdata : Byte
  /-- `RAW` (R32). -/
  raw : Half
  /-- `MAG` (R33). -/
  mag : Word
  /-- `FMT` (R34). -/
  fmt : Byte
  /-- `SEQ[0..7]` (R35). -/
  seq : Vector Byte 8
  /-- `DRV` (R39): `true` while the block drives the line low. -/
  drv : Bool
  /-- `SR` (R40). -/
  sr : Byte
  /-- `BITCNT` (R40). -/
  bitcnt : BitVec 4
  /-- `BCD` (R41). -/
  bcd : Word
  /-- `OPC` (R41). -/
  opc : BitVec 4
  /-- `IMM` (R41). -/
  imm : Byte
  /-- `STEP` (R42): the index of the next primitive of the running operation. -/
  stp : Nat
  /-- The pseudocode's temporary between a `Sense()` and its use (log entry 12). -/
  smp : Bool
  /-- The sequencer is stuck for ever (`WEDGE_HANGS`, R133; log entry 5). -/
  hung : Bool
  /-- How many free glyph codes have been given (log entry 7). -/
  draws : Nat
  /-- The line trace, oldest event first (R100). -/
  lt : List LineEvent
  /-- The sink trace, oldest event first (R75). -/
  sink : List SinkEvent
  /-- The inputs still to come, in the order in which they land (log entry 2). -/
  inputs : List Arrival
  /-- The environment's next answers about the level of the released line, one for each `Sense()` and, where `WEDGE_HANGS` is true, one
  for the first `DriveLow()` of a bus operation; after them `Config.env` answers (log entry 4). -/
  levels : List Bool
  /-- A device holds the line low (R76, R133). -/
  held : Bool
  /-- What the host's reads returned, oldest first (log entry 14). -/
  got : List ReadBack
deriving DecidableEq, Repr

/-- Why a step can stop. -/
inductive Fault where
  /-- Raised by `tick`: the sequencer is stuck with `BUSY = 1` (R133, `WEDGE_HANGS = true`: "has no step") and no input is left that
  could land. Safe: the spec says that there is no step. -/
  | busWedged
  /-- Raised by `tick`: `BUSY = 1` and `OPC`, `IMM`, `STEP` name no primitive. No run reaches such a state (`Safety.Inv` rules it out).
  Safe: the model stops. -/
  | noPrimitive
deriving DecidableEq, Repr

/-- Why a step can be refused. -/
inductive Refusal where
  /-- Raised by `exec`, for a command without a meaning. No arm does: every command has its meaning. Safe. -/
  | notModelled (mnemonic : String)
deriving DecidableEq, Repr

/-- The state right after reset (R44, R190, R191), with the default configuration and no input to come. The fields that are the model's
own hold the values of log entry 8 (DESIGN CHOICE). -/
def State.reset : State where
  cfg := Cfg.default
  busy := false
  pres := false
  rbit := false
  ovf := false
  ill := false
  cerr := false
  rdata := 0
  raw := 0
  mag := 0
  fmt := 0
  seq := Vector.replicate 8 0
  drv := false
  sr := 0
  bitcnt := 0
  bcd := 0
  opc := 0
  imm := 0
  stp := 0
  smp := false
  hung := false
  draws := 0
  lt := []
  sink := []
  inputs := []
  levels := []
  held := false
  got := []

end Sys2Proof.Machine
end

