-- ==== Sys2Proof/Machine/Operands.lean ====
section
/-! DEFINITION. Operand forms: the signed Reading, the fields of `FMT`, the glyph table, the bit-order mirror, and which bit a write
slot carries. -/

namespace Sys2Proof.Machine

/-- `sext(v)` (R10): `v` where `v[15] = 0`, else `v - 65536`. -/
def sext (v : Half) : Int :=
  if v.getLsbD 15 then (v.toNat : Int) - 65536 else (v.toNat : Int)

/-- `FMT.SGN` (R34). -/
def sgnOf (fmt : Byte) : Bool := fmt.getLsbD 7

/-- `FMT.DP` (R34): 0 for no point, p for a point on the digit p places above the least-significant one (R150, C1). -/
def dpOf (fmt : Byte) : Nat := (fmt.extractLsb' 0 3).toNat

/-- `{sgn, 0b0000, dp}`, the value of `FMT` with that sign flag and point position. -/
def fmtValue (sgn : Bool) (dp : BitVec 3) : Byte := BitVec.ofBool sgn ++ 0#4 ++ dp

/-- `G(k) = GLYPH[k]` (R36). Every use has `k ≤ 21` (R151); beyond the table the answer is 0 and nothing rests on it (log entry 24). -/
def glyphAt (c : Cfg) (k : Nat) : Byte := (c.glyph[k]?).getD 0

/-- `rev8(x)` (R127): three mask-and-shift passes, of group width 1, 2 and 4. -/
def rev8 (x : Byte) : Byte :=
  let a := ((x &&& 0x55) <<< 1) ||| ((x &&& 0xAA) >>> 1)
  let b := ((a &&& 0x33) <<< 2) ||| ((a &&& 0xCC) >>> 2)
  ((b &&& 0x0F) <<< 4) ||| ((b &&& 0xF0) >>> 4)

/-- Where a write slot takes its bit from. -/
inductive BitSource where
  /-- `imm8[0]`: `OWWBIT` (R105). -/
  | imm
  /-- `SR[0]`: `WriteByte` (R124). -/
  | sr
deriving DecidableEq, Repr

/-- The bit a write slot carries. -/
def State.slotBit (s : State) : BitSource → Bool
  | .imm => s.imm.getLsbD 0
  | .sr  => s.sr.getLsbD 0

/-- `L` of `WriteBit(v)` (R103): the low time of a write slot carrying `v`. -/
def slotLow (c : Cfg) (v : Bool) : Nat := if v then c.tW1L else c.tW0L

/-- `T_WSLOT - L` of `WriteBit(v)` (R103): the rest of the slot. -/
def slotPad (c : Cfg) (v : Bool) : Nat := c.tWslot - slotLow c v

end Sys2Proof.Machine
end

