-- ==== Sys2Proof/Machine/Convert.lean ====
section
/-! DEFINITION. The arithmetic of `CVT1` and `CVT2` (`spec/42_glyph_encoder.md` R143 to R147): exact integers, one truncation of the
magnitude, one store. -/

namespace Sys2Proof.Machine

/-- `MAG` and `FMT` from a signed numerator `n` of eighths of the displayed tenths: `MAG <- |n| div 8`, `SGN = (n < 0)`, `DP = 1`. -/
def State.storeScaled (n : Int) (s : State) : State :=
  { s with mag := BitVec.ofNat 32 (n.natAbs / 8), fmt := fmtValue (decide (n < 0)) 1 }

/-- `CVT1` (R143): `(5 * |r|) div 8`, with the sign of `r`. -/
def State.convert1 (s : State) : State := s.storeScaled (5 * sext s.raw)

/-- `CVT2` (R146): `n = 9 * r + 80 * UNIT2_OFFSET`. -/
def State.convert2 (s : State) : State := s.storeScaled (9 * sext s.raw + 80 * s.cfg.unit2Offset)

end Sys2Proof.Machine
end

