-- ==== Sys2Proof/Machine/Flags.lean ====
section
/-! DEFINITION. `STATUS`: its view as a register (`spec/10_state.md` R25) and the raising of a sticky fault flag
(`spec/60_exceptions.md` R172, R176). The block has no other flag computation (R43) and takes no exception (R170). -/

namespace Sys2Proof.Machine

/-- The three sticky fault flags; a fault's "code" is its bit number in `STATUS` (R176). -/
inductive FaultFlag where
  /-- Bit 3, encoder overflow (R173). -/
  | ovf
  /-- Bit 4, an illegal command word (R175). -/
  | ill
  /-- Bit 5, a host write while busy (R174). -/
  | cerr
deriving DecidableEq, Repr

/-- `raise F` (R11): sets the sticky flag and transfers control nowhere. -/
def State.raise (f : FaultFlag) (s : State) : State :=
  match f with
  | .ovf  => { s with ovf := true }
  | .ill  => { s with ill := true }
  | .cerr => { s with cerr := true }

/-- `STATUS` (R25): bit 0 `BUSY`, 1 `PRES`, 2 `RBIT`, 3 `OVF`, 4 `ILL`, 5 `CERR`, 7:6 hard-wired 0. -/
def State.statusBits (s : State) : Byte :=
  0#2 ++ BitVec.ofBool s.cerr ++ BitVec.ofBool s.ill ++ BitVec.ofBool s.ovf ++ BitVec.ofBool s.rbit ++ BitVec.ofBool s.pres ++
    BitVec.ofBool s.busy

/-- `STATUS` as a host reads it while an operation runs (R30): `BUSY`, `OVF`, `ILL` and `CERR` are true, `PRES` and `RBIT` are the
unspecified bits `p` and `r`. -/
def State.statusBitsBusy (s : State) (p r : Bool) : Byte :=
  0#2 ++ BitVec.ofBool s.cerr ++ BitVec.ofBool s.ill ++ BitVec.ofBool s.ovf ++ BitVec.ofBool r ++ BitVec.ofBool p ++
    BitVec.ofBool s.busy

end Sys2Proof.Machine
end

