-- ==== Sys2Proof/Machine/Glyph.lean ====
section
/-! DEFINITION. The encoder proper, `ENC` (`spec/42_glyph_encoder.md` R148 to R156), step by step. -/

namespace Sys2Proof.Machine

/-- Step 1 (R149): the loop body for digit `k`, on `BCD` and the rest `m` of the magnitude. -/
def packStep (acc : Word × Nat) (k : Nat) : Word × Nat :=
  (acc.1 ||| (BitVec.ofNat 32 (acc.2 % 10) <<< (4 * k)), acc.2 / 10)

/-- Step 1 (R149): `BCD` after exactly eight rounds, and what is left of the magnitude. -/
def packDigits (m : Nat) : Word × Nat := (List.range 8).foldl packStep (0, m)

/-- `d[i]` (R148): `BCD[3:0]` after `i` shifts by four bits, that is `BCD[4i+3:4i]` (R68). -/
def nibble (bcd : Word) (i : Nat) : Nat := (bcd >>> (4 * i)).toNat % 16

/-- Step 2 (R149 to R151): the glyph of digit `d` at position `i`, with the point where `DP` is not 0 and equals `i`. -/
def digitGlyph (c : Cfg) (dp i d : Nat) : Byte := if dp ≠ 0 ∧ i = dp then glyphAt c (d + 10) else glyphAt c d

/-- `lead0(i)` (R148, R152) for digit `d` at position `i`. -/
def lead0 (c : Cfg) (dp i d : Nat) : Bool := d == 0 && (c.blankDpZero || !(dp != 0 && i == dp))

/-- Step 3 (R152): the scan from position `i` downward, which never passes position 0. -/
def firstSignificant (blank : Nat → Bool) : Nat → Nat
  | 0     => 0
  | i + 1 => if blank (i + 1) then firstSignificant blank i else i + 1

/-- The eight positions after steps 2 to 4, `i` being the first significant position: digits up to `i`, the minus sign above it where the
sign flag is set (R153), blanks above (R152). -/
def glyphRow (c : Cfg) (dp : Nat) (sgn : Bool) (bcd : Word) (i : Nat) : Vector Byte 8 :=
  Vector.ofFn fun p : Fin 8 =>
    if p.val ≤ i then digitGlyph c dp p.val (nibble bcd p.val)
    else if sgn ∧ p.val = i + 1 then glyphAt c 20
    else glyphAt c 21

/-- Eight unspecified codes (R156), drawn from the free value. -/
def freeRow (n : Nat) : Vector Byte 8 := Vector.ofFn fun p : Fin 8 => Config.freeGlyph (n + p.val)

/-- `BCD` after the eight shifts of step 2 (R149). -/
def shiftedOut (bcd : Word) : Word := (List.range 8).foldl (fun b _ => b >>> 4) bcd

/-- `ENC` (R148). On overflow (R156) the flag is raised, `SEQ` is unspecified, and everything else happens all the same. -/
def State.encodeGlyphs (s : State) : State :=
  let dp   := dpOf s.fmt
  let sgn  := sgnOf s.fmt
  let pack := packDigits s.mag.toNat
  let i    := firstSignificant (fun p => lead0 s.cfg dp p (nibble pack.1 p)) 7
  let t    := { s with bcd := shiftedOut pack.1 }
  if pack.2 ≠ 0 ∨ (sgn ∧ i = 7) then
    State.raise .ovf { t with seq := freeRow s.draws, draws := s.draws + 8 }
  else { t with seq := glyphRow s.cfg dp sgn pack.1 i }

end Sys2Proof.Machine
end

