-- ==== Sys2Proof/Syntax.lean ====
section
/-! DEFINITION. The ten commands of the block (`spec/30_encoding.md` R83), one constructor per row of `spec/opcode_table.json`, and the
three pseudo-commands of R97. -/

namespace Sys2Proof

/-- A command. The operands wider than a command word (`RAW`, `MAG`, `FMT`, `SEQ`) are registers and stand in State (R81, R82). -/
inductive Instr where
  /-- `OWRST`: the bus reset and presence cycle (R121). -/
  | owrst
  /-- `OWWBIT v`: write one bit slot (R105). `v` is the word's `imm8`, of which only 0 and 1 are well formed (R82). -/
  | owwbit (v : Byte)
  /-- `OWRBIT`: run one read slot (R106). -/
  | owrbit
  /-- `OWWBYTE b`: write one byte (R125). -/
  | owwbyte (b : Byte)
  /-- `OWRBYTE`: read one byte (R128). -/
  | owrbyte
  /-- `BREV x`: reverse the bit order of `x` (R131). -/
  | brev (x : Byte)
  /-- `CVT1`: Reading to first-unit magnitude (R143). -/
  | cvt1
  /-- `CVT2`: Reading to second-unit magnitude (R146). -/
  | cvt2
  /-- `ENC`: magnitude, sign and point position to a Digit Sequence (R148). -/
  | enc
  /-- `DPUT`: push the Digit Sequence to the Display Sink (R162). -/
  | dput
deriving DecidableEq, Repr

/-- `OWSKIP` (R97): the skip-ROM broadcast, `OWWBYTE 0xCC`. -/
def Instr.owskip : Instr := .owwbyte 0xCC

/-- `OWCONV` (R97): start a conversion, `OWWBYTE 0x44`. -/
def Instr.owconv : Instr := .owwbyte 0x44

/-- `OWRDSCR` (R97): read the scratch memory, `OWWBYTE 0xBE`. -/
def Instr.owrdscr : Instr := .owwbyte 0xBE

end Sys2Proof
end

