-- ==== Sys2Proof/WellFormed.lean ====
section
/-! DEFINITION. Which commands have a command word (`spec/30_encoding.md` R82). -/

namespace Sys2Proof

/-- R82: `OWWBIT` "requires `imm8[7:1] = 0`". Every other operand is a whole `imm8` and always fits. -/
def Instr.wf : Instr → Bool
  | .owwbit v  => v.extractLsb' 1 7 == 0
  | .owrst     => true
  | .owrbit    => true
  | .owwbyte _ => true
  | .owrbyte   => true
  | .brev _    => true
  | .cvt1      => true
  | .cvt2      => true
  | .enc       => true
  | .dput      => true

end Sys2Proof
end

