-- ==== Sys2Proof/Decode.lean ====
section
/-! DEFINITION. The decoder (`spec/30_encoding.md` R90), total on 16-bit words and rejecting by name, the encoder written from the same
table (R80, R83), and the table itself with its match and mask. -/

namespace Sys2Proof

/-- Why a command word is illegal (R92, R93). -/
inductive DecodeError where
  /-- Bits 15:12 are not zero. -/
  | mbzNotZero
  /-- `opc` is 0x0 or 0xB to 0xF. -/
  | reservedOpc (opc : BitVec 4)
  /-- A non-zero `imm8` on an operation that takes none. -/
  | strayImmediate (opc : BitVec 4) (imm : Byte)
  /-- `OWWBIT` with `imm8[7:1]` not zero. -/
  | notABit (imm : Byte)
deriving DecidableEq, Repr

/-- `i` where the immediate is zero (R82: "the other seven operations take no immediate and require `imm8 = 0x00`"). -/
def noImmediate (opc : BitVec 4) (imm : Byte) (i : Instr) : Except DecodeError Instr :=
  if imm = 0 then .ok i else .error (.strayImmediate opc imm)

/-- The decoder's `case opc of` (R90). -/
def decodeFields (opc : BitVec 4) (imm : Byte) : Except DecodeError Instr :=
  match opc.toNat with
  | 0x1 => noImmediate opc imm .owrst
  | 0x2 => if imm.extractLsb' 1 7 = 0 then .ok (.owwbit imm) else .error (.notABit imm)
  | 0x3 => noImmediate opc imm .owrbit
  | 0x4 => .ok (.owwbyte imm)
  | 0x5 => noImmediate opc imm .owrbyte
  | 0x6 => .ok (.brev imm)
  | 0x7 => noImmediate opc imm .cvt1
  | 0x8 => noImmediate opc imm .cvt2
  | 0x9 => noImmediate opc imm .enc
  | 0xA => noImmediate opc imm .dput
  | _   => .error (.reservedOpc opc)

/-- The field `mbz` of a command word (R80). -/
def mbzField (w : Half) : BitVec 4 := w.extractLsb' 12 4

/-- The field `opc` of a command word (R80). -/
def opcField (w : Half) : BitVec 4 := w.extractLsb' 8 4

/-- The field `imm8` of a command word (R80). -/
def immField (w : Half) : Byte := w.extractLsb' 0 8

/-- The decoder (R90). It reads the word and nothing else (R91). -/
def decode (w : Half) : Except DecodeError Instr :=
  if mbzField w ≠ 0 then .error .mbzNotZero else decodeFields (opcField w) (immField w)

/-- The operation code of each command (R83). -/
def opcOf : Instr → BitVec 4
  | .owrst     => 0x1
  | .owwbit _  => 0x2
  | .owrbit    => 0x3
  | .owwbyte _ => 0x4
  | .owrbyte   => 0x5
  | .brev _    => 0x6
  | .cvt1      => 0x7
  | .cvt2      => 0x8
  | .enc       => 0x9
  | .dput      => 0xA

/-- The immediate of each command (R82). -/
def immOf : Instr → Byte
  | .owrst     => 0
  | .owwbit v  => v
  | .owrbit    => 0
  | .owwbyte b => b
  | .owrbyte   => 0
  | .brev x    => x
  | .cvt1      => 0
  | .cvt2      => 0
  | .enc       => 0
  | .dput      => 0

/-- The command word of a command, in format C (R80): `mbz`, `opc`, `imm8`. -/
def encode (i : Instr) : Half := 0#4 ++ opcOf i ++ immOf i

/-- One row of the opcode map (R83): a word `w` selects the row iff `w &&& mask = pattern`. -/
structure OpcodeRow where
  mnemonic : String
  pattern  : Half
  mask     : Half
deriving DecidableEq, Repr

/-- The opcode map (R83). -/
def opcodeMap : List OpcodeRow :=
  [⟨"OWRST", 0x0100, 0xFFFF⟩, ⟨"OWWBIT", 0x0200, 0xFFFE⟩, ⟨"OWRBIT", 0x0300, 0xFFFF⟩, ⟨"OWWBYTE", 0x0400, 0xFF00⟩,
   ⟨"OWRBYTE", 0x0500, 0xFFFF⟩, ⟨"BREV", 0x0600, 0xFF00⟩, ⟨"CVT1", 0x0700, 0xFFFF⟩, ⟨"CVT2", 0x0800, 0xFFFF⟩,
   ⟨"ENC", 0x0900, 0xFFFF⟩, ⟨"DPUT", 0x0A00, 0xFFFF⟩]

/-- `w` selects the row `r` (R83). -/
def OpcodeRow.selects (r : OpcodeRow) (w : Half) : Bool := w &&& r.mask == r.pattern

/-- A command's mnemonic, as `spec/opcode_table.json` writes it. -/
def mnemonicOf : Instr → String
  | .owrst     => "OWRST"
  | .owwbit _  => "OWWBIT"
  | .owrbit    => "OWRBIT"
  | .owwbyte _ => "OWWBYTE"
  | .owrbyte   => "OWRBYTE"
  | .brev _    => "BREV"
  | .cvt1      => "CVT1"
  | .cvt2      => "CVT2"
  | .enc       => "ENC"
  | .dput      => "DPUT"

/-- The command the decoder reads from a word whose bits are `w`, numbered as `spec/opcode_table.json` numbers them; bits above
`nbits` are zero. There is one command length, 16 bits (R80), and no byte order: the host writes the word whole (R67). -/
def decodeTableWord (nbits w : Nat) : Option Instr :=
  match decode (BitVec.ofNat 16 (w % 2 ^ nbits)) with
  | .ok i    => some i
  | .error _ => none

end Sys2Proof
end

