-- ==== Sys2Proof/Machine/Ops.lean ====
section
/-! DEFINITION. The named operations over State: the primitives of the Bus Line and of the sink (`spec/00_scope.md` R11), the block's reset
(`spec/70_reset_and_hazards.md` R190), the host's access to the registers (`spec/20_memory.md` R61 to R66), and the arrival of
inputs. There is no exception to take and none to return from (R170, R180). -/

namespace Sys2Proof.Machine

/-! ## The line and the sink -/

/-- Appends an event to the line trace. -/
def State.emit (e : LineEvent) (s : State) : State := { s with lt := s.lt ++ [e] }

/-- `DriveLow()` (R100). -/
def State.driveLow (s : State) : State := State.emit .low { s with drv := true }

/-- `Release()` (R100). -/
def State.release (s : State) : State := State.emit .rel { s with drv := false }

/-- `Wait(n)` (R102): only the trace knows of it. -/
def State.waitFor (n : Nat) (s : State) : State := State.emit (.wait n) s

/-- What the environment answers now about the released line: the next of the listed levels, or else the free value (R101). -/
def State.answer (s : State) : Bool :=
  match s.levels with
  | v :: _ => v
  | []     => Config.env s.lt

/-- The level the environment gives the released line (R76): low while a device holds it low, else what the environment answers. -/
def State.envLevel (s : State) : Bool := !s.held && s.answer

/-- The level of the line (R76): low while the block drives it, else as the environment gives it. -/
def State.lineLevel (s : State) : Bool := !s.drv && s.envLevel

/-- The environment has been asked for the level at which a bus operation begins, as `WEDGE_HANGS` requires (R133). It is asked for
nothing where that switch is false. -/
def State.questioned (s : State) : State :=
  { s with levels := if s.cfg.wedgeHangs then s.levels.tail else s.levels }

/-- `Sense()` (R101): asks the environment once, and keeps the level in the pseudocode's temporary. -/
def State.sense (s : State) : State :=
  { State.emit (.sample s.lineLevel) s with smp := s.lineLevel, levels := s.levels.tail }

/-- `Put(p, c)` (R75): the sink accepts every transfer. -/
def State.put (p : Fin 8) (c : Byte) (s : State) : State := { s with sink := s.sink ++ [⟨p, c⟩] }

/-! ## Reset -/

/-- The block's reset (R190, R192): every register and hidden register takes its reset value, the line is released, both traces are
emptied. The configuration and what belongs to the outside world stay (log entry 22). -/
def State.resetBlock (s : State) : State :=
  { State.reset with
    cfg := s.cfg, draws := s.draws, inputs := s.inputs, levels := s.levels, held := s.held, got := s.got }

/-! ## Host access -/

/-- The register numbered `a`, zero-extended (R21, R63); `CMD`, the reserved numbers and any number above 0x3F read 0 (R66). -/
def State.regValue (s : State) (a : Nat) : Word :=
  if a = 0x01 then s.statusBits.setWidth 32
  else if a = 0x02 then s.rdata.setWidth 32
  else if a = 0x03 then s.raw.setWidth 32
  else if a = 0x04 then s.mag
  else if a = 0x05 then s.fmt.setWidth 32
  else if 0x08 ≤ a ∧ a ≤ 0x0F then ((s.seq[a - 0x08]?).getD 0).setWidth 32
  else if 0x10 ≤ a ∧ a ≤ 0x25 then (glyphAt s.cfg (a - 0x10)).setWidth 32
  else 0

/-- What a read returns while an operation runs (R30), `u` being the unspecified value: `PRES`, `RBIT`, `RDATA`, `MAG`, `FMT` and
`SEQ[i]` are unspecified; everything else reads true. -/
def State.regValueBusy (s : State) (a : Nat) (u : Word) : Word :=
  if a = 0x01 then (s.statusBitsBusy (u.getLsbD 1) (u.getLsbD 2)).setWidth 32
  else if a = 0x04 then u
  else if a = 0x02 ∨ a = 0x05 ∨ (0x08 ≤ a ∧ a ≤ 0x0F) then (u.setWidth 8).setWidth 32
  else s.regValue a

/-- `RegRead(a)` (R63, R30): the host receives the value; nothing of the block changes. -/
def State.hostRead (a : Nat) (s : State) : State :=
  { s with got := s.got ++
      [⟨a, if s.busy then s.regValueBusy a (Config.freeRead s.got.length) else s.regValue a⟩] }

/-- The command word of a value written to `CMD` (R61, R64): its low 16 bits. -/
def cmdWord (v : Word) : Half := v.setWidth 16

/-- A write to a data register while idle (R64): `RAW`, `MAG`, `FMT` take their bits, any other number nothing. -/
def State.writeData (a : Nat) (v : Word) (s : State) : State :=
  if a = 0x03 then { s with raw := v.setWidth 16 }
  else if a = 0x04 then { s with mag := v }
  else if a = 0x05 then { s with fmt := fmtValue (v.getLsbD 7) (v.extractLsb' 0 3) }
  else s

/-- A host write that starts nothing: dropped with `CERR` while busy (R62); an illegal word to `CMD` raises `ILL` (R92); a legal one is
no business of this function (`arrive` hands it to `exec`); any other number follows R64. -/
def State.hostWrite (a : Nat) (v : Word) (s : State) : State :=
  if s.busy then s.raise .cerr
  else if a = 0x00 then
    match decode (cmdWord v) with
    | .ok _    => s
    | .error _ => s.raise .ill
  else s.writeData a v

/-- The effect of an input that starts no operation. -/
def State.accept (i : Input) (s : State) : State :=
  match i with
  | .write a v => s.hostWrite a v
  | .read a    => s.hostRead a
  | .reset     => s.resetBlock
  | .hold low  => { s with held := low }
  | .delay _   => s

/-! ## The arrival of inputs -/

/-- What happens to an idle block: nothing is to come, an operation starts, or an input has had its effect. -/
inductive Arrived where
  | nothing
  | command (i : Instr) (s : State)
  | settled (s : State)
deriving DecidableEq, Repr

/-- The next input of an idle block (R61): a legal command word written to `CMD` starts an operation, and nothing else does. -/
def State.arrive (s : State) : Arrived :=
  match s.inputs with
  | []        => .nothing
  | e :: rest =>
    let s' := { s with inputs := rest }
    match e.input with
    | .write a v =>
      if a = 0x00 then
        match decode (cmdWord v) with
        | .ok i    => .command i s'
        | .error _ => .settled (s'.hostWrite a v)
      else .settled (s'.hostWrite a v)
    | other => .settled (s'.accept other)

/-- One primitive has run: the input that waits for primitives has one fewer to wait for. -/
def countDown : List Arrival → List Arrival
  | ⟨some (n + 1), i⟩ :: rest => ⟨some n, i⟩ :: rest
  | l => l

/-- Lets the inputs that are due between two primitives have their effect, in order, until one of them ends the operation. The first
argument is the list of inputs of `s`. -/
def landDue : List Arrival → State → State
  | [], s => s
  | e :: rest, s =>
    if s.busy ∧ e.after = some 0 then landDue rest (({ s with inputs := rest } : State).accept e.input) else s

end Sys2Proof.Machine
end

