-- ==== Sys2Proof/Machine/Sequencer.lean ====
section
/-! DEFINITION. The sequencer (`spec/00_scope.md` R12, R13): an operation is a finite list of primitives (`spec/10_state.md` R42: "an
index into the operation's expanded primitive list"), run to completion, between whose primitives inputs may land. -/

namespace Sys2Proof.Machine

/-- One line of an operation's pseudocode (R11): a primitive of a port, or register moves, which take no time (R100, D3). -/
inductive Prim where
  /-- `DriveLow()`, the first of a bus operation (R133). -/
  | driveFirst
  /-- `DriveLow()`, any other. -/
  | driveLow
  /-- `Release()`. -/
  | release
  /-- `Wait(n)`. -/
  | wait (n : Nat)
  /-- `Wait(L)` of a write slot (R103). -/
  | slotLow (v : BitSource)
  /-- `Wait(T_WSLOT - L)` of a write slot (R103). -/
  | slotPad (v : BitSource)
  /-- `b <- Sense()`. -/
  | sense
  /-- `Put(p, SEQ[p])` (R162). -/
  | put (p : Fin 8)
  /-- `PRES <- !s` (R121). -/
  | latchPres
  /-- `RBIT <- b` (R106). -/
  | latchRbit
  /-- `SR <- b; BITCNT <- 8` (R124). -/
  | loadSr
  /-- `SR <- SR >> 1; BITCNT <- BITCNT - 1` (R124). -/
  | shiftOut
  /-- `SR <- 0x00; BITCNT <- 8` (R126). -/
  | clearSr
  /-- `SR <- ((SR << 1) | bit) & 0xFF; BITCNT <- BITCNT - 1` (R126). -/
  | shiftIn
  /-- `RDATA <- rev8(SR)` (R126, R128). -/
  | latchRdata
  /-- `RDATA <- rev8(x)` (R131). -/
  | reverse
  /-- The register moves of `CVT1` (R143). -/
  | convert1
  /-- The register moves of `CVT2` (R146). -/
  | convert2
  /-- The register moves of `ENC` (R148). -/
  | encode
  /-- `BUSY <- 0` (R26). -/
  | finish
deriving DecidableEq, Repr

/-- The effect of one primitive. -/
def execPrim (p : Prim) (s : State) : State :=
  match p with
  | .driveFirst => s.questioned.driveLow
  | .driveLow   => s.driveLow
  | .release    => s.release
  | .wait n     => s.waitFor n
  | .slotLow v  => s.waitFor (slotLow s.cfg (s.slotBit v))
  | .slotPad v  => s.waitFor (slotPad s.cfg (s.slotBit v))
  | .sense      => s.sense
  | .put p      => s.put p s.seq[p]
  | .latchPres  => { s with pres := !s.smp }
  | .latchRbit  => { s with rbit := s.smp }
  | .loadSr     => { s with sr := s.imm, bitcnt := 8 }
  | .shiftOut   => { s with sr := s.sr >>> 1, bitcnt := s.bitcnt - 1 }
  | .clearSr    => { s with sr := 0, bitcnt := 8 }
  | .shiftIn    => { s with sr := (s.sr <<< 1) ||| (BitVec.ofBool s.smp).setWidth 8, bitcnt := s.bitcnt - 1 }
  | .latchRdata => { s with rdata := rev8 s.sr }
  | .reverse    => { s with rdata := rev8 s.imm }
  | .convert1   => s.convert1
  | .convert2   => s.convert2
  | .encode     => s.encodeGlyphs
  | .finish     => { s with busy := false }

/-- The sequencer has no step at `p` (R133): `p` is the first `DriveLow()` of a bus operation, `WEDGE_HANGS` is true, and the environment
holds the line low. -/
def State.sticks (p : Prim) (s : State) : Bool := p == .driveFirst && s.cfg.wedgeHangs && !s.envLevel

/-- One primitive runs, and the sequencer moves on to the next (R42); or the sequencer is stuck at it (R133). -/
def primStep (p : Prim) (s : State) : State :=
  if s.sticks p then { s.questioned with hung := true }
  else
    let t := execPrim p s
    { t with stp := t.stp + 1, inputs := countDown t.inputs }

/-- Runs a list of primitives to its end (R12). Before each one the inputs that are due land; a reset among them abandons the operation
(R192), and a stuck sequencer runs no more of it (R133). -/
def runPrims : List Prim → State → State
  | [], s => s
  | p :: ps, s =>
    if s.hung then s
    else
      let t := landDue s.inputs s
      if t.busy then runPrims ps (primStep p t) else t

/-- Acceptance of a legal command word (R61): `OPC`, `IMM`, `BUSY <- 1`, `STEP <- 0`. -/
def State.begin (opc : BitVec 4) (imm : Byte) (s : State) : State :=
  { s with opc := opc, imm := imm, busy := true, stp := 0, hung := false }

/-- An operation as one transition (R42): acceptance, then its primitives. -/
def runOperation (opc : BitVec 4) (imm : Byte) (prog : List Prim) (s : State) : Host.Outcome State Fault Refusal :=
  .next (runPrims prog (s.begin opc imm))

end Sys2Proof.Machine
end

