-- ==== Sys2Proof/Machine/Bus.lean ====
section
/-! DEFINITION. The meanings of the bus commands: `OWWBIT`, `OWRBIT` (`spec/40_bit_primitives.md`), `OWRST`, `OWWBYTE`, `OWRBYTE` and
`BREV` (`spec/41_bus_driver.md`), each the list of its pseudocode's primitives. -/

namespace Sys2Proof.Machine

/-- `WriteBit(v)` (R103); `d` is its `DriveLow()`, the first of the operation or another. -/
def writeBitProg (d : Prim) (v : BitSource) : List Prim := [d, .slotLow v, .release, .slotPad v]

/-- `ReadBit()` (R104); `d` is its `DriveLow()`, the first of the operation or another. -/
def readBitProg (c : Cfg) (d : Prim) : List Prim := [d, .wait c.tRinit, .release, .wait c.tRsamp, .sense, .wait c.tRpad]

/-- `n` rounds of a loop. -/
def rounds (n : Nat) (body : List Prim) : List Prim := (List.replicate n body).flatten

/-- `OWRST` (R121). -/
def owrstProg (c : Cfg) : List Prim :=
  [.driveFirst, .wait c.tRstl, .release, .wait c.tPds, .sense, .latchPres, .wait c.tRstt, .finish]

/-- `OWWBIT v` (R105). -/
def owwbitProg : List Prim := writeBitProg .driveFirst .imm ++ [.finish]

/-- `OWRBIT` (R106). -/
def owrbitProg (c : Cfg) : List Prim := readBitProg c .driveFirst ++ [.latchRbit, .finish]

/-- `OWWBYTE b` (R125) over `WriteByte(b)` (R124): the loop on `BITCNT` runs eight times. -/
def owwbyteProg : List Prim :=
  [.loadSr] ++ (writeBitProg .driveFirst .sr ++ [.shiftOut]) ++ rounds 7 (writeBitProg .driveLow .sr ++ [.shiftOut]) ++ [.finish]

/-- `OWRBYTE` (R128) over `ReadByte()` (R126): the loop on `BITCNT` runs eight times. -/
def owrbyteProg (c : Cfg) : List Prim :=
  [.clearSr] ++ (readBitProg c .driveFirst ++ [.shiftIn]) ++ rounds 7 (readBitProg c .driveLow ++ [.shiftIn]) ++
    [.latchRdata, .finish]

/-- `BREV x` (R131). -/
def brevProg : List Prim := [.reverse, .finish]

/-- `OWRST` (R121). -/
def execOwrst (s : State) : Host.Outcome State Fault Refusal := runOperation 0x1 0 (owrstProg s.cfg) s

/-- `OWWBIT v` (R105). -/
def execOwwbit (v : Byte) (s : State) : Host.Outcome State Fault Refusal := runOperation 0x2 v owwbitProg s

/-- `OWRBIT` (R106). -/
def execOwrbit (s : State) : Host.Outcome State Fault Refusal := runOperation 0x3 0 (owrbitProg s.cfg) s

/-- `OWWBYTE b` (R125). -/
def execOwwbyte (b : Byte) (s : State) : Host.Outcome State Fault Refusal := runOperation 0x4 b owwbyteProg s

/-- `OWRBYTE` (R128). -/
def execOwrbyte (s : State) : Host.Outcome State Fault Refusal := runOperation 0x5 0 (owrbyteProg s.cfg) s

/-- `BREV x` (R131): no line activity. -/
def execBrev (x : Byte) (s : State) : Host.Outcome State Fault Refusal := runOperation 0x6 x brevProg s

end Sys2Proof.Machine
end

