-- ==== Sys2Proof/Machine/Encoder.lean ====
section
/-! DEFINITION. The meanings of the encoder's commands: `CVT1`, `CVT2`, `ENC` and `DPUT` (`spec/42_glyph_encoder.md`). -/

namespace Sys2Proof.Machine

/-- `CVT1` (R143). -/
def cvt1Prog : List Prim := [.convert1, .finish]

/-- `CVT2` (R146). -/
def cvt2Prog : List Prim := [.convert2, .finish]

/-- `ENC` (R148). -/
def encProg : List Prim := [.encode, .finish]

/-- `DPUT` (R162): positions 0 to 7 in ascending order. -/
def dputProg : List Prim := (List.finRange 8).map .put ++ [.finish]

/-- `CVT1` (R143). -/
def execCvt1 (s : State) : Host.Outcome State Fault Refusal := runOperation 0x7 0 cvt1Prog s

/-- `CVT2` (R146). -/
def execCvt2 (s : State) : Host.Outcome State Fault Refusal := runOperation 0x8 0 cvt2Prog s

/-- `ENC` (R148). -/
def execEnc (s : State) : Host.Outcome State Fault Refusal := runOperation 0x9 0 encProg s

/-- `DPUT` (R162). -/
def execDput (s : State) : Host.Outcome State Fault Refusal := runOperation 0xA 0 dputProg s

end Sys2Proof.Machine
end

