-- ==== Sys2Proof/Machine/Dispatch.lean ====
section
/-! DEFINITION. One arm per command (`spec/30_encoding.md` R83): the whole effect of the operation an accepted command word starts. -/

namespace Sys2Proof.Machine

def exec (i : Instr) (s : State) : Host.Outcome State Fault Refusal :=
  match i with
  | .owrst => Sys2Proof.Machine.execOwrst s
  | .owwbit v => Sys2Proof.Machine.execOwwbit v s
  | .owrbit => Sys2Proof.Machine.execOwrbit s
  | .owwbyte b => Sys2Proof.Machine.execOwwbyte b s
  | .owrbyte => Sys2Proof.Machine.execOwrbyte s
  | .brev x => Sys2Proof.Machine.execBrev x s
  | .cvt1 => Sys2Proof.Machine.execCvt1 s
  | .cvt2 => Sys2Proof.Machine.execCvt2 s
  | .enc => Sys2Proof.Machine.execEnc s
  | .dput => Sys2Proof.Machine.execDput s

end Sys2Proof.Machine
end

