-- ==== Sys2Proof/Machine/Tick.lean ====
section
/-! DEFINITION. The sequencer primitive by primitive (`spec/10_state.md` R42: "a small-step model may keep `STEP` as an index into the
operation's expanded primitive list"): one step of a block with `BUSY = 1`. -/

namespace Sys2Proof.Machine

/-- The primitives of each operation. -/
def progOf (c : Cfg) : Instr → List Prim
  | .owrst     => owrstProg c
  | .owwbit _  => owwbitProg
  | .owrbit    => owrbitProg c
  | .owwbyte _ => owwbyteProg
  | .owrbyte   => owrbyteProg c
  | .brev _    => brevProg
  | .cvt1      => cvt1Prog
  | .cvt2      => cvt2Prog
  | .enc       => encProg
  | .dput      => dputProg

/-- The state right after the acceptance of `i` (R61). -/
def State.started (i : Instr) (s : State) : State := s.begin (opcOf i) (immOf i)

/-- The primitives of the running operation, which `OPC` and `IMM` name (R41). -/
def State.program (s : State) : List Prim :=
  match decodeFields s.opc s.imm with
  | .ok i    => progOf s.cfg i
  | .error _ => []

/-- Whether the next input lands now, with `BUSY = 1`. A stuck sequencer runs no further primitive, so an input that counts primitives
waits for nothing; one that waits for `BUSY = 0` waits for ever (log entry 5). -/
def State.due (s : State) (e : Arrival) : Bool :=
  match e.after with
  | none   => false
  | some n => n == 0 || s.hung

/-- One step of a busy block: the next input if it is due, else the primitive at `STEP`. -/
def tick (s : State) : Host.Outcome State Fault Refusal :=
  match s.inputs with
  | e :: rest =>
    if s.due e then .next (({ s with inputs := rest } : State).accept e.input)
    else if s.hung then .fault .busWedged
    else match s.program[s.stp]? with
      | some p => .next (primStep p s)
      | none   => .fault .noPrimitive
  | [] =>
    if s.hung then .fault .busWedged
    else match s.program[s.stp]? with
      | some p => .next (primStep p s)
      | none   => .fault .noPrimitive

end Sys2Proof.Machine
end

