-- ==== Sys2Proof/Machine/Step.lean ====
section
/-! DEFINITION. One step of the machine. The block has no program counter and fetches nothing (`spec/10_state.md` R22): its commands come
from the host's writes to `CMD`, and these stand in `inputs`. -/

namespace Sys2Proof.Machine

/-- One step. A busy block takes one primitive or lets one input land (`tick`). An idle one takes the next input: a legal command word
runs its whole operation (R42), and with nothing to come the block stays as it is (R61: "the block never starts one on its own"). -/
def step (s : State) : Host.Outcome State Fault Refusal :=
  if s.busy then tick s
  else match s.arrive with
    | .nothing     => .next s
    | .command i t => exec i t
    | .settled t   => .next t

/-- `s` with the host about to write the word to `CMD` of an idle block, so that the very next step runs the command (log entry 15). -/
def State.withFetchWord (s : State) (nbits w : Nat) : State :=
  { s with busy := false, inputs := ⟨none, .write 0x00 (BitVec.ofNat 32 (w % 2 ^ nbits))⟩ :: s.inputs }

end Sys2Proof.Machine
end

