-- ==== Sys2Proof/Safety.lean ====
section
/-! DEFINITION. What a good run is, and the words the statements use: the traces of the slots, durations and low pulses read back from a
trace, the environment's answers, the first significant digit, and the invariant every step keeps. -/

namespace Sys2Proof.Machine

/-! ## Conditions on a state -/

/-- No input lands while the next operation runs: the host waits for `BUSY = 0` before it does anything (R200 (1), (2)). -/
def State.quiet (s : State) : Bool :=
  match s.inputs with
  | []     => true
  | e :: _ => e.after.isNone

/-- Which operations are bus operations, that is use the line (R120). -/
def isBusOp : Instr → Bool
  | .owrst     => true
  | .owwbit _  => true
  | .owrbit    => true
  | .owwbyte _ => true
  | .owrbyte   => true
  | .brev _    => false
  | .cvt1      => false
  | .cvt2      => false
  | .enc       => false
  | .dput      => false

/-- How many lines of a bus operation's pseudocode come before its first `DriveLow()`: a byte operation loads `SR` and `BITCNT` first
(R124, R126). -/
def firstDrive : Instr → Nat
  | .owwbyte _ => 1
  | .owrbyte   => 1
  | _          => 0

/-- A bus operation that issues its first `DriveLow()` now is not stuck: `WEDGE_HANGS` is false or the line reads high (R133). -/
def State.lineUsable (s : State) : Bool := !s.cfg.wedgeHangs || s.envLevel

/-- None of the inputs asserts reset. -/
def noReset (l : List Arrival) : Bool := l.all fun e => decide (e.input ≠ .reset)

/-- The inputs of `s` that have landed on the way to `t`: those of `s` that are no longer among those of `t`, which are a rest of them. -/
def landed (s t : State) : List Arrival := s.inputs.take (s.inputs.length - t.inputs.length)

/-- An input is one of the host's own accesses or pauses: no reset and no device on the line. -/
def isHostAccess : Input → Bool
  | .write _ _ => true
  | .read _    => true
  | .reset     => false
  | .hold _    => false
  | .delay _   => true

/-- An input is a host write. -/
def isHostWrite : Input → Bool
  | .write _ _ => true
  | .read _    => false
  | .reset     => false
  | .hold _    => false
  | .delay _   => false

/-- An input is none of the host's own, or an access of a host that keeps its rules: it lands only after `BUSY = 0`, and what it writes to
`CMD` is a legal command word (R200 (1) to (3)). -/
def politeArrival (e : Arrival) : Bool :=
  match e.input with
  | .write a v => e.after.isNone && (a != 0x00 || (match decode (cmdWord v) with | .ok _ => true | .error _ => false))
  | .read _    => e.after.isNone
  | .reset     => true
  | .hold _    => true
  | .delay _   => true

/-- Every register and hidden register at its reset value, the line released, both traces empty (R190, R191). -/
def State.asAfterReset (s : State) : Prop :=
  s.statusBits = 0x00 ∧ s.rdata = 0x00 ∧ s.raw = 0x0000 ∧ s.mag = 0 ∧ s.fmt = 0x00 ∧ (∀ i : Fin 8, s.seq[i] = 0x00) ∧
    s.sr = 0x00 ∧ s.bitcnt = 0 ∧ s.bcd = 0 ∧ s.opc = 0 ∧ s.imm = 0 ∧ s.stp = 0 ∧ s.drv = false ∧ s.lt = [] ∧ s.sink = []

/-! ## Traces -/

/-- The events of `WriteBit(v)` (R103). -/
def writeSlot (c : Cfg) (v : Bool) : List LineEvent :=
  [.low, .wait (if v then c.tW1L else c.tW0L), .rel, .wait (c.tWslot - (if v then c.tW1L else c.tW0L))]

/-- The events of `ReadBit()` up to its sample (R104). -/
def readOpening (c : Cfg) : List LineEvent := [.low, .wait c.tRinit, .rel, .wait c.tRsamp]

/-- The events of `ReadBit()` returning `b` (R104). -/
def readSlot (c : Cfg) (b : Bool) : List LineEvent := readOpening c ++ [.sample b, .wait c.tRpad]

/-- The events of `OWRST` up to its sample (R121). -/
def resetOpening (c : Cfg) : List LineEvent := [.low, .wait c.tRstl, .rel, .wait c.tPds]

/-- The events of `OWRST` with the sample `b` (R121). -/
def resetCycle (c : Cfg) (b : Bool) : List LineEvent := resetOpening c ++ [.sample b, .wait c.tRstt]

/-- The bits of a byte in the order of the bus, least-significant first (R67). -/
def busBits (b : Byte) : List Bool := (List.range 8).map fun k => b.getLsbD k

/-- The time one event takes: only `WAIT` takes any (R100). -/
def eventTime : LineEvent → Nat
  | .wait n => n
  | _       => 0

/-- The time a stretch of the trace takes: the sum of its `WAIT`s (R100). -/
def duration (l : List LineEvent) : Nat := (l.map eventTime).sum

/-- The lengths of the low pulses of a trace, oldest first; the first argument is the time since a `LOW` not yet released. -/
def lowPulsesFrom : Option Nat → List LineEvent → List Nat
  | _,      []             => []
  | _,      .low :: r      => lowPulsesFrom (some 0) r
  | some n, .wait m :: r   => lowPulsesFrom (some (n + m)) r
  | none,   .wait _ :: r   => lowPulsesFrom none r
  | some n, .rel :: r      => n :: lowPulsesFrom none r
  | none,   .rel :: r      => lowPulsesFrom none r
  | o,      .sample _ :: r => lowPulsesFrom o r

/-- The lengths of the low pulses of a trace. -/
def lowPulses (l : List LineEvent) : List Nat := lowPulsesFrom none l

/-- The bits a test reads back from write slots (R109): a low time of `T_W1L` is a one. -/
def readBack (c : Cfg) (l : List LineEvent) : List Bool := (lowPulses l).map fun n => decide (n = c.tW1L)

/-- How long an operation keeps the line (R210); the encoder's operations take none of its time. -/
def opDuration (c : Cfg) : Instr → Nat
  | .owrst     => c.tRstl + c.tPds + c.tRstt
  | .owwbit _  => c.tWslot
  | .owrbit    => c.tRinit + c.tRsamp + c.tRpad
  | .owwbyte _ => 8 * c.tWslot
  | .owrbyte   => 8 * (c.tRinit + c.tRsamp + c.tRpad)
  | .brev _    => 0
  | .cvt1      => 0
  | .cvt2      => 0
  | .enc       => 0
  | .dput      => 0

/-- How many primitives of the line an operation runs (R205). -/
def lineCount : Instr → Nat
  | .owrst     => 6
  | .owwbit _  => 4
  | .owrbit    => 6
  | .owwbyte _ => 32
  | .owrbyte   => 48
  | .brev _    => 0
  | .cvt1      => 0
  | .cvt2      => 0
  | .enc       => 0
  | .dput      => 0

/-- How many `Put`s an operation runs (R205). -/
def putCount : Instr → Nat
  | .dput => 8
  | _     => 0

/-! ## The environment's answers -/

/-- The level the `k`-th `Sense()` from now (0 first) finds on the released line when the line trace is `lt` at that moment: low where a
device holds the line, else the `k`-th listed level, else the oracle's answer (R101, R133). -/
def State.sampleAt (s : State) (k : Nat) (lt : List LineEvent) : Bool := !s.held && (s.levels[k]?).getD (Config.env lt)

/-- The samples of the first `n` read slots of a byte read begun in `s`. -/
def State.slotSamples (s : State) : Nat → List Bool
  | 0     => []
  | n + 1 =>
    let before := s.slotSamples n
    before ++ [s.sampleAt n (s.lt ++ before.flatMap (readSlot s.cfg) ++ readOpening s.cfg)]

/-! ## The encoder -/

/-- The decimal digit of weight `10^p` (R68). -/
def decimalDigit (m p : Nat) : Nat := m / 10 ^ p % 10

/-- The digit at position `p` is a leading zero that may be blanked (R148 `lead0`, R152). -/
def State.blankable (s : State) (p : Nat) : Prop :=
  decimalDigit s.mag.toNat p = 0 ∧ (s.cfg.blankDpZero = true ∨ ¬ (dpOf s.fmt ≠ 0 ∧ p = dpOf s.fmt))

/-- `f` is the position of the first significant digit: the scan from position 7 downward stops there (R152, R153). -/
def State.firstDigit (s : State) (f : Nat) : Prop :=
  f ≤ 7 ∧ (f = 0 ∨ ¬ s.blankable f) ∧ ∀ p, f < p → p ≤ 7 → s.blankable p

/-- The overflow condition of R156. -/
def State.overflows (s : State) : Prop :=
  99999999 < s.mag.toNat ∨ (sgnOf s.fmt = true ∧ s.firstDigit 7)

/-! ## The invariant -/

/-- Who drives the line after a list of primitives (R39). -/
def drvAfter : List Prim → Bool → Bool
  | [], d => d
  | .driveFirst :: ps, _ => drvAfter ps true
  | .driveLow :: ps, _ => drvAfter ps true
  | .release :: ps, _ => drvAfter ps false
  | _ :: ps, d => drvAfter ps d

/-- `BITCNT` after a list of primitives (R40). -/
def cntAfter : List Prim → BitVec 4 → BitVec 4
  | [], n => n
  | .loadSr :: ps, _ => cntAfter ps 8
  | .clearSr :: ps, _ => cntAfter ps 8
  | .shiftOut :: ps, n => cntAfter ps (n - 1)
  | .shiftIn :: ps, n => cntAfter ps (n - 1)
  | _ :: ps, n => cntAfter ps n

/-- Nothing of an operation is left over: the line is released, the bit counter is 0, the sequencer is not stuck (R39, R40). -/
def State.atRest (s : State) : Prop := s.drv = false ∧ s.bitcnt = 0 ∧ s.hung = false

/-- The sequencer is stuck at the first `DriveLow()` of a bus operation (R133). -/
def State.stuck (s : State) : Prop :=
  s.hung = true ∧ s.cfg.wedgeHangs = true ∧ s.program[s.stp]? = some .driveFirst

/-- The sequencer stands at a primitive of the operation that `OPC` and `IMM` name, and the line and the bit counter are as the
primitives before it left them (R39 to R42). -/
def State.midOperation (s : State) : Prop :=
  s.stp < s.program.length ∧
    s.drv = drvAfter (s.program.take s.stp) false ∧ s.bitcnt = cntAfter (s.program.take s.stp) 0

/-- The invariant: the configuration meets its constraints (R7, R8, R37), the reserved bits of `FMT` are 0 (R34), and `BUSY`, the line
and the sequencer agree (R26, R39, R40, R42, R133). -/
def State.Inv (s : State) : Prop :=
  s.cfg.wf = true ∧ s.fmt &&& 0x78 = 0 ∧
    (s.busy = false → s.atRest) ∧ (s.busy = true → s.midOperation ∧ (s.hung = false ∨ s.stuck))

end Sys2Proof.Machine
end

