-- ==== Sys2Proof/Certificates/Slice0/Obligations.lean ====
section
/-! DEFINITION. The statements about OWM-GE, for the provers. A statement's docstring names the rules of `spec/` it formalises. In the
statements of results `STEP` and the temporary `smp` are left open (`∃ n b`): their values after an operation are the model's own. -/

open Sys2Proof Sys2Proof.Machine

/-! ## Encoding -/

/-- Decoding the word of a well-formed command gives the command back, for every value of its operand (R80 to R83, R90). -/
def Obligations.DecodeOfEncodeIsTheCommand : Prop :=
  ∀ i : Instr, i.wf = true → decode (encode i) = .ok i

/-- A legal word is the word of the command it decodes to, and that command is well formed (R82, R90). -/
def Obligations.EncodeOfDecodedIsTheWord : Prop :=
  ∀ (w : Half) (i : Instr), decode w = .ok i → i.wf = true ∧ encode i = w

/-- A word is legal exactly when it selects a row of the opcode map, then only the row of the command it decodes to (R83). -/
def Obligations.LegalWordsSelectExactlyOneRow : Prop :=
  ∀ w : Half,
    (∀ i, decode w = .ok i → ∀ r ∈ opcodeMap, r.selects w = true ↔ r.mnemonic = mnemonicOf i) ∧
    ((∃ r ∈ opcodeMap, r.selects w = true) → ∃ i, decode w = .ok i)

/-- Some of the words of R83, R93 and R97 (the pseudo-commands), as the spec writes them. -/
def Obligations.DecodeOfWrittenWords : Prop :=
  decode 0x0100 = .ok .owrst ∧ decode 0x0201 = .ok (.owwbit 1) ∧ decode 0x0300 = .ok .owrbit ∧
  decode 0x04CC = .ok .owskip ∧ decode 0x0444 = .ok .owconv ∧ decode 0x04BE = .ok .owrdscr ∧
  decode 0x0500 = .ok .owrbyte ∧ decode 0x06A5 = .ok (.brev 0xA5) ∧
  decode 0x0700 = .ok .cvt1 ∧ decode 0x0800 = .ok .cvt2 ∧ decode 0x0900 = .ok .enc ∧ decode 0x0A00 = .ok .dput ∧
  decode 0x0000 = .error (.reservedOpc 0) ∧ decode 0x0101 = .error (.strayImmediate 1 1) ∧
  decode 0x0202 = .error (.notABit 2) ∧ decode 0x0B00 = .error (.reservedOpc 0xB) ∧ decode 0x1100 = .error .mbzNotZero

/-! ## The host -/

/-- A legal word written to `CMD` while `BUSY = 0` runs its command: one step is `exec` of it, with the write taken from the inputs. The
value's bits 31:16 are ignored (R61, R64). -/
def Obligations.StepRunsTheDecodedCommand : Prop :=
  ∀ (s : State) (after : Option Nat) (v : Word) (rest : List Arrival) (i : Instr),
    s.busy = false → s.inputs = ⟨after, .write 0x00 v⟩ :: rest → decode (v.setWidth 16) = .ok i →
    step s = exec i { s with inputs := rest }

/-- The accepted state from which the operation runs (R61): `OPC <- w[11:8]`, `IMM <- w[7:0]`, `BUSY <- 1`, `STEP <- 0`, and nothing else
of the block. -/
def Obligations.AcceptanceLatchesTheWordAndSetsBusy : Prop :=
  ∀ (w : Half) (i : Instr) (s : State), decode w = .ok i →
    s.started i = { s with opc := w.extractLsb' 8 4, imm := w.extractLsb' 0 8, busy := true, stp := 0, hung := false }

/-- `BUSY = 1` while an operation runs and 0 when it has ended (R26): a read of `STATUS` that lands before any of its primitives, its
last register write included, sees bit 0 set. -/
def Obligations.StatusShowsBusyWhileAnOperationRuns : Prop :=
  ∀ (i : Instr) (s : State) (n : Nat) (rest : List Arrival), (isBusOp i = true → s.lineUsable = true) →
    s.inputs = ⟨some n, .read 0x01⟩ :: rest → State.quiet { s with inputs := rest } = true → n < (progOf s.cfg i).length →
    ∃ t v, exec i s = .next t ∧ t.got = s.got ++ [⟨0x01, v⟩] ∧ v.getLsbD 0 = true ∧ t.busy = false

/-- With nothing to come an idle block steps to itself: the model's own choice (DESIGN CHOICE of log entry 16), beside R61, which says only
that it starts no operation on its own. -/
def Obligations.IdleBlockStaysAsItIs : Prop :=
  ∀ s : State, s.busy = false → s.inputs = [] → step s = .next s

/-- The table of R64: what a write does while `BUSY = 0`; an illegal word written to `CMD` sets `ILL` and does nothing else (R92). -/
def Obligations.IdleWriteFollowsTheRegisterTable : Prop :=
  ∀ (s : State) (after : Option Nat) (a : Nat) (v : Word) (rest : List Arrival),
    s.busy = false → s.inputs = ⟨after, .write a v⟩ :: rest →
    (∀ i, a = 0x00 → decode (v.extractLsb' 0 16) = .ok i → step s = exec i { s with inputs := rest }) ∧
    (∀ e, a = 0x00 → decode (v.extractLsb' 0 16) = .error e → step s = .next { s with inputs := rest, ill := true }) ∧
    (a = 0x03 → step s = .next { s with inputs := rest, raw := v.extractLsb' 0 16 }) ∧
    (a = 0x04 → step s = .next { s with inputs := rest, mag := v }) ∧
    (a = 0x05 → ∃ f : Byte, (∀ k, k < 8 → f.getLsbD k = (v.getLsbD k && decide (k = 7 ∨ k < 3))) ∧
      step s = .next { s with inputs := rest, fmt := f }) ∧
    (a ≠ 0x00 → a ≠ 0x03 → a ≠ 0x04 → a ≠ 0x05 → step s = .next { s with inputs := rest })

/-- A read while `BUSY = 0` returns the register zero-extended and changes nothing of the block (R63, R66, R25 for `STATUS`). -/
def Obligations.IdleReadReturnsTheRegister : Prop :=
  ∀ (s : State) (after : Option Nat) (a : Nat) (rest : List Arrival),
    s.busy = false → s.inputs = ⟨after, .read a⟩ :: rest →
    ∃ v : Word, step s = .next { s with inputs := rest, got := s.got ++ [⟨a, v⟩] } ∧
      (a = 0x01 → v.toNat = s.pres.toNat * 2 + s.rbit.toNat * 4 + s.ovf.toNat * 8 + s.ill.toNat * 16 + s.cerr.toNat * 32) ∧
      (a = 0x02 → v.toNat = s.rdata.toNat) ∧ (a = 0x03 → v.toNat = s.raw.toNat) ∧ (a = 0x04 → v = s.mag) ∧
      (a = 0x05 → v.toNat = s.fmt.toNat) ∧
      (∀ i : Fin 8, a = 0x08 + i.val → v.toNat = s.seq[i].toNat) ∧
      (∀ k : Fin 22, a = 0x10 + k.val → v.toNat = s.cfg.glyph[k].toNat) ∧
      (a = 0x00 ∨ a = 0x06 ∨ a = 0x07 ∨ 0x26 ≤ a → v = 0)

/-- A host write to any register number while `BUSY = 1` is dropped and sets `CERR` (R62); also an illegal word, which then sets no
`ILL` (R177). -/
def Obligations.BusyWriteIsDroppedAndSetsCerr : Prop :=
  ∀ (s : State) (a : Nat) (v : Word) (rest : List Arrival),
    s.busy = true → s.inputs = ⟨some 0, .write a v⟩ :: rest → step s = .next { s with inputs := rest, cerr := true }

/-- A read while `BUSY = 1` changes nothing of the block; `STATUS` shows `BUSY`, `OVF`, `ILL`, `CERR` as they are, `RAW` and `GLYPH[k]`
read true (R30). -/
def Obligations.BusyReadShowsTheTrueFlags : Prop :=
  ∀ (s : State) (a : Nat) (rest : List Arrival),
    s.busy = true → s.inputs = ⟨some 0, .read a⟩ :: rest →
    ∃ v : Word, step s = .next { s with inputs := rest, got := s.got ++ [⟨a, v⟩] } ∧
      (a = 0x01 → v.getLsbD 0 = true ∧ v.getLsbD 3 = s.ovf ∧ v.getLsbD 4 = s.ill ∧ v.getLsbD 5 = s.cerr ∧
        ∀ k, 6 ≤ k → v.getLsbD k = false) ∧
      (a = 0x03 → v.toNat = s.raw.toNat) ∧
      (∀ k : Fin 22, a = 0x10 + k.val → v.toNat = s.cfg.glyph[k].toNat)

/-- `RegRead` gives the host an unspecified value of a result register while `BUSY = 1`: the free value, whatever it is (R30). DESIGN
CHOICE of log entry 6: the value has the register's width. -/
def Obligations.BusyReadOfAResultIsTheFreeValue : Prop :=
  ∀ (s : State) (a : Nat) (rest : List Arrival),
    s.busy = true → s.inputs = ⟨some 0, .read a⟩ :: rest →
    ∃ t, step s = .next t ∧
      (a = 0x04 → t.got = s.got ++ [⟨a, Config.freeRead s.got.length⟩]) ∧
      (a = 0x02 ∨ a = 0x05 ∨ (0x08 ≤ a ∧ a ≤ 0x0F) →
        t.got = s.got ++ [⟨a, ((Config.freeRead s.got.length).setWidth 8).setWidth 32⟩])

/-! ## Reset -/

/-- Reset in one step: of an idle block whenever it arrives, of a busy one between any two primitives, of a stuck one at once. Every
register and hidden register takes its reset value, the line is released, both traces are emptied, the glyph table is as it is (R190). -/
def Obligations.ResetPutsEveryRegisterBack : Prop :=
  ∀ (s : State) (after : Option Nat) (rest : List Arrival), s.inputs = ⟨after, .reset⟩ :: rest →
    (s.busy = false ∨ after = some 0 ∨ (s.hung = true ∧ after ≠ none)) →
    ∃ t, step s = .next t ∧ t.asAfterReset ∧ t.cfg = s.cfg ∧ t.inputs = rest

/-- The state right after reset, spelled out (R191). -/
def Obligations.ResetStateHoldsTheWrittenValues : Prop :=
  State.reset.statusBits = 0x00 ∧ State.reset.rdata = 0x00 ∧ State.reset.raw = 0x0000 ∧ State.reset.mag = 0 ∧
  State.reset.fmt = 0x00 ∧ (∀ i : Fin 8, State.reset.seq[i] = 0x00) ∧ State.reset.sr = 0x00 ∧ State.reset.bitcnt = 0 ∧
  State.reset.bcd = 0 ∧ State.reset.opc = 0 ∧ State.reset.imm = 0 ∧ State.reset.stp = 0 ∧ State.reset.drv = false ∧
  State.reset.lt = [] ∧ State.reset.sink = []

/-- A reset that falls between two primitives of an operation abandons it at once: no further primitive of it runs, no result is written,
the line is released, and the block is as after any reset (R192). -/
def Obligations.ResetDuringAnOperationAbandonsIt : Prop :=
  ∀ (i : Instr) (s : State) (n : Nat) (rest : List Arrival),
    (isBusOp i = true → s.lineUsable = true) → s.inputs = ⟨some n, .reset⟩ :: rest → n < (progOf s.cfg i).length →
    ∃ t, exec i s = .next t ∧ t.asAfterReset ∧ t.cfg = s.cfg ∧ t.inputs = rest

/-! ## The bus operations

Where `WEDGE_HANGS` is true the environment is asked for the level of the line before the first sample (log entry 4): `s.questioned` is
`s` after that question, and `s` itself where the switch is false. -/

/-- `OWRST` (R121), word 0x0100: the reset cycle's six events, `PRES` the inverse of the one sample, nothing else changed but the
sequencer's own registers; the cycle lasts `T_RSTL + T_PDS + T_RSTT`. -/
def Obligations.OwrstRunsTheResetCycle : Prop :=
  decode 0x0100 = .ok .owrst ∧
  ∀ s : State, s.quiet = true → s.lineUsable = true →
    (∃ n b, exec .owrst s = .next { s with
      opc := 0x1, imm := 0, busy := false, hung := false, drv := false, stp := n, smp := b,
      pres := !(s.questioned.sampleAt 0 (s.lt ++ resetOpening s.cfg)),
      lt := s.lt ++ resetCycle s.cfg (s.questioned.sampleAt 0 (s.lt ++ resetOpening s.cfg)),
      levels := s.questioned.levels.drop 1 }) ∧
    ∀ b, duration (resetCycle s.cfg b) = s.cfg.tRstl + s.cfg.tPds + s.cfg.tRstt

/-- `OWWBIT v` (R105, R103), words 0x0200 and 0x0201, no other `imm8` being legal: one write slot carrying `imm8[0]`, nothing else changed
but the sequencer's own registers; the slot lasts `T_WSLOT`. -/
def Obligations.OwwbitSendsOneWriteSlot : Prop :=
  decode 0x0200 = .ok (.owwbit 0) ∧ decode 0x0201 = .ok (.owwbit 1) ∧
  (∀ v : Byte, v.extractLsb' 1 7 ≠ 0 → decode (0x02#8 ++ v) = .error (.notABit v)) ∧
  ∀ (v : Byte) (s : State), s.quiet = true → s.lineUsable = true →
    (∃ n, exec (.owwbit v) s = .next { s with
      opc := 0x2, imm := v, busy := false, hung := false, drv := false, stp := n,
      lt := s.lt ++ writeSlot s.cfg (v.getLsbD 0), levels := s.questioned.levels }) ∧
    (s.cfg.wf = true → duration (writeSlot s.cfg (v.getLsbD 0)) = s.cfg.tWslot)

/-- `OWRBIT` (R106, R104), word 0x0300: one read slot, `RBIT` the sampled level, nothing else changed but the sequencer's own registers;
the slot lasts `T_RINIT + T_RSAMP + T_RPAD`. -/
def Obligations.OwrbitLatchesTheSample : Prop :=
  decode 0x0300 = .ok .owrbit ∧
  ∀ s : State, s.quiet = true → s.lineUsable = true →
    (∃ n b, exec .owrbit s = .next { s with
      opc := 0x3, imm := 0, busy := false, hung := false, drv := false, stp := n, smp := b,
      rbit := s.questioned.sampleAt 0 (s.lt ++ readOpening s.cfg),
      lt := s.lt ++ readSlot s.cfg (s.questioned.sampleAt 0 (s.lt ++ readOpening s.cfg)),
      levels := s.questioned.levels.drop 1 }) ∧
    ∀ b, duration (readSlot s.cfg b) = s.cfg.tRinit + s.cfg.tRsamp + s.cfg.tRpad

/-- `OWWBYTE b` (R125, R124), words 0x0400 to 0x04FF: eight write slots, slot k carrying `b[k]`; `SR` and `BITCNT` end at 0, nothing else
changes but the sequencer's own registers; the byte takes eight times `T_WSLOT`. -/
def Obligations.OwwbyteSendsTheByteLeastSignificantBitFirst : Prop :=
  ∀ b : Byte, decode (0x04#8 ++ b) = .ok (.owwbyte b) ∧
  ∀ s : State, s.quiet = true → s.lineUsable = true →
    (∃ n, exec (.owwbyte b) s = .next { s with
      opc := 0x4, imm := b, busy := false, hung := false, drv := false, stp := n, sr := 0, bitcnt := 0,
      lt := s.lt ++ (busBits b).flatMap (writeSlot s.cfg), levels := s.questioned.levels }) ∧
    (s.cfg.wf = true → duration ((busBits b).flatMap (writeSlot s.cfg)) = 8 * s.cfg.tWslot)

/-- `OWRBYTE` (R128, R126), word 0x0500: eight read slots; bit k of `RDATA` is the k-th sample, `SR` keeps the unreversed byte, nothing else
changes but the sequencer's own registers; the byte takes eight read slots. -/
def Obligations.OwrbyteCollectsTheSamples : Prop :=
  decode 0x0500 = .ok .owrbyte ∧
  ∀ s : State, s.quiet = true → s.lineUsable = true →
    ∃ (r q : Byte) (n : Nat) (b : Bool),
      (∀ k, k < 8 → (s.questioned.slotSamples 8)[k]? = some (r.getLsbD k) ∧ r.getLsbD k = q.getLsbD (7 - k)) ∧
      duration ((s.questioned.slotSamples 8).flatMap (readSlot s.cfg)) = 8 * (s.cfg.tRinit + s.cfg.tRsamp + s.cfg.tRpad) ∧
      exec .owrbyte s = .next { s with
        opc := 0x5, imm := 0, busy := false, hung := false, drv := false, stp := n, smp := b,
        sr := q, bitcnt := 0, rdata := r,
        lt := s.lt ++ (s.questioned.slotSamples 8).flatMap (readSlot s.cfg), levels := s.questioned.levels.drop 8 }

/-- `BREV x` (R131), words 0x0600 to 0x06FF: `RDATA[i] = x[7-i]` (R127), no line activity, nothing else changed but the sequencer's own
registers. -/
def Obligations.BrevMirrorsTheByte : Prop :=
  ∀ x : Byte, decode (0x06#8 ++ x) = .ok (.brev x) ∧
  ∀ s : State, s.quiet = true →
    ∃ (r : Byte) (n : Nat), (∀ k, k < 8 → r.getLsbD k = x.getLsbD (7 - k)) ∧
      exec (.brev x) s = .next { s with
        opc := 0x6, imm := x, busy := false, hung := false, stp := n, rdata := r }

/-- `BREV` of the byte a `BREV` left gives the first byte back (R130). -/
def Obligations.BrevTwiceGivesTheByteBack : Prop :=
  ∀ (x : Byte) (s t u : State), s.quiet = true →
    exec (.brev x) s = .next t → exec (.brev t.rdata) t = .next u → u.rdata = x

/-- A byte written and echoed bit by bit is read back (R129): the environment answers the k-th sample with the bit read back from the
k-th write slot (R109), after the line has read high where `WEDGE_HANGS` asks for that. -/
def Obligations.LoopbackReturnsTheByte : Prop :=
  ∀ (b : Byte) (s t : State) (more : List Bool),
    s.quiet = true → s.cfg.wf = true → s.held = false → s.lineUsable = true → exec (.owwbyte b) s = .next t →
    ∃ u, exec .owrbyte { t with
        levels := (if s.cfg.wedgeHangs then [true] else []) ++ readBack s.cfg (t.lt.drop s.lt.length) ++ more } = .next u ∧
      u.rdata = b

/-- How long each operation keeps the line (R210), and how many primitives of each port it runs (R205). -/
def Obligations.DurationsAndPrimitiveCounts : Prop :=
  ∀ (i : Instr) (s t : State), s.cfg.wf = true → s.quiet = true → (isBusOp i = true → s.lineUsable = true) → exec i s = .next t →
    ∃ l p, t.lt = s.lt ++ l ∧ t.sink = s.sink ++ p ∧
      duration l = opDuration s.cfg i ∧ l.length = lineCount i ∧ p.length = putCount i

/-- Every low pulse of an operation is one of the configured ones, and a reset pulse comes from `OWRST` only (R120, R39). -/
def Obligations.LowPulsesAreTheConfiguredOnes : Prop :=
  ∀ (i : Instr) (s t : State), s.quiet = true → (isBusOp i = true → s.lineUsable = true) → exec i s = .next t →
    ∃ l, t.lt = s.lt ++ l ∧ ∀ n ∈ lowPulses l,
      (i = .owrst ∧ n = s.cfg.tRstl) ∨ n = s.cfg.tW1L ∨ n = s.cfg.tW0L ∨ n = s.cfg.tRinit

/-- The bits of a written byte can be read back from the low times of its slots, least-significant bit first (R109, R67). -/
def Obligations.LowTimesCarryTheByte : Prop :=
  ∀ (b : Byte) (s t : State), s.cfg.wf = true → s.quiet = true → s.lineUsable = true → exec (.owwbyte b) s = .next t →
    readBack s.cfg (t.lt.drop s.lt.length) = busBits b

/-- On a line held low every bus operation ends in its normal way and its normal time where `WEDGE_HANGS` is false: `PRES = 1`,
`RBIT = 0`, `RDATA = 0x00`, the written slots as ever (R133). -/
def Obligations.WedgedLineReadsAsLow : Prop :=
  ∀ s : State, s.quiet = true → s.held = true → s.cfg.wedgeHangs = false →
    (∃ t, exec .owrst s = .next t ∧ t.busy = false ∧ t.drv = false ∧ t.pres = true ∧
      t.lt = s.lt ++ resetCycle s.cfg false ∧ duration (resetCycle s.cfg false) = opDuration s.cfg .owrst) ∧
    (∃ t, exec .owrbit s = .next t ∧ t.busy = false ∧ t.drv = false ∧ t.rbit = false ∧
      t.lt = s.lt ++ readSlot s.cfg false ∧ duration (readSlot s.cfg false) = opDuration s.cfg .owrbit) ∧
    (∃ t l, exec .owrbyte s = .next t ∧ t.busy = false ∧ t.drv = false ∧ t.rdata = 0x00 ∧
      t.lt = s.lt ++ l ∧ l = (List.replicate 8 false).flatMap (readSlot s.cfg) ∧ duration l = opDuration s.cfg .owrbyte) ∧
    (∀ v, ∃ t l, exec (.owwbit v) s = .next t ∧ t.busy = false ∧ t.drv = false ∧
      t.lt = s.lt ++ l ∧ l = writeSlot s.cfg (v.getLsbD 0) ∧ (s.cfg.wf = true → duration l = opDuration s.cfg (.owwbit v))) ∧
    (∀ b, ∃ t l, exec (.owwbyte b) s = .next t ∧ t.busy = false ∧ t.drv = false ∧
      t.lt = s.lt ++ l ∧ l = (busBits b).flatMap (writeSlot s.cfg) ∧ (s.cfg.wf = true → duration l = opDuration s.cfg (.owwbyte b)))

/-- Where `WEDGE_HANGS` is true, a bus operation whose first `DriveLow()` would be issued on a line that reads low is stuck there (R133,
R8): `BUSY = 1`, no event, no result, no step; and it is stuck for ever, whatever lands, until a reset. The model's own: how the line is
found to read low then (DESIGN CHOICE of log entry 4), and which inputs reach a stuck block (DEDUCED, log entry 5). -/
def Obligations.WedgedLineHangsWhereConfigured : Prop :=
  (∀ (i : Instr) (s : State), isBusOp i = true → s.quiet = true → s.cfg.wedgeHangs = true → s.envLevel = false →
    ∃ (t : State) (n : Nat) (q : Byte) (c : BitVec 4), exec i s = .next t ∧
      t = { s with
        opc := opcOf i, imm := immOf i, stp := n, sr := q, bitcnt := c, busy := true, hung := true, levels := s.levels.tail } ∧
      step t = .fault .busWedged) ∧
  (∀ s t : State, s.busy = true → s.hung = true → step s = .next t → noReset (landed s t) = true →
    t.busy = true ∧ t.hung = true ∧ t.lt = s.lt ∧ t.drv = s.drv ∧ t.pres = s.pres ∧ t.rbit = s.rbit ∧ t.rdata = s.rdata)

/-- Whether a bus operation is stuck is decided at its first `DriveLow()` and not before or after (R133): a device that seizes or frees
the line up to then counts, one that does so later does not. How the environment is asked then is the model's own (log entry 4). -/
def Obligations.TheLineAtTheFirstDriveLowDecides : Prop :=
  ∀ (i : Instr) (s : State) (n : Nat) (b : Bool) (rest : List Arrival),
    isBusOp i = true → s.cfg.wedgeHangs = true → s.inputs = ⟨some n, .hold b⟩ :: rest →
    State.quiet { s with inputs := rest } = true →
    ∃ t, exec i s = .next t ∧
      (n ≤ firstDrive i → t.hung = !(State.envLevel { s with held := b })) ∧
      (firstDrive i < n → t.hung = !s.envLevel)

/-! ## The encoder -/

/-- `CVT1` (R143), word 0x0700: `MAG = (5 * |r|) div 8`, at most 20480 and so without wrapping, `SGN = (r < 0)`, `DP = 1`, nothing else
changed but the sequencer's own registers. -/
def Obligations.Cvt1ScalesTheReading : Prop :=
  decode 0x0700 = .ok .cvt1 ∧
  ∀ s : State, s.quiet = true →
    ∃ (m : Word) (f : Byte) (n : Nat), m.toNat = 5 * s.raw.toInt.natAbs / 8 ∧ m.toNat ≤ 20480 ∧
      f = (if s.raw.toInt < 0 then 0x81 else 0x01) ∧
      exec .cvt1 s = .next { s with
        opc := 0x7, imm := 0, busy := false, hung := false, stp := n, mag := m, fmt := f }

/-- `CVT2` (R146), word 0x0800: `n = 9 r + 80 UNIT2_OFFSET`, `MAG = |n| div 8` without wrapping, `SGN = (n < 0)`, `DP = 1`, nothing else
changed but the sequencer's own registers. -/
def Obligations.Cvt2ScalesAndOffsetsTheReading : Prop :=
  decode 0x0800 = .ok .cvt2 ∧
  ∀ s : State, s.cfg.wf = true → s.quiet = true →
    ∃ (m : Word) (f : Byte) (n : Nat), m.toNat = (9 * s.raw.toInt + 80 * s.cfg.unit2Offset).natAbs / 8 ∧
      f = (if 9 * s.raw.toInt + 80 * s.cfg.unit2Offset < 0 then 0x81 else 0x01) ∧
      exec .cvt2 s = .next { s with
        opc := 0x8, imm := 0, busy := false, hung := false, stp := n, mag := m, fmt := f }

/-- `ENC` (word 0x0900) on every input outside the overflow condition (R157): there is a first significant digit, at position 6 or below
where `SGN` is set; the positions up to it show the decimal digits of `MAG` (R151), the one at `DP`, where that is not 0, with its point
(R150), the position above it a minus sign where `SGN` is set (R153), every other one a blank; `BCD` ends at 0, and nothing else changes
but the sequencer's own registers. -/
def Obligations.EncShowsTheDecimalDigits : Prop :=
  decode 0x0900 = .ok .enc ∧
  ∀ s : State, s.quiet = true → ¬ s.overflows →
    ∃ (f : Nat) (q : Vector Byte 8) (n : Nat),
      s.firstDigit f ∧ (sgnOf s.fmt = true → f ≤ 6) ∧
      (∀ p : Fin 8,
        (p.val ≤ f → q[p] = glyphAt s.cfg (decimalDigit s.mag.toNat p.val +
          (if dpOf s.fmt ≠ 0 ∧ p.val = dpOf s.fmt then 10 else 0))) ∧
        (f < p.val → q[p] = glyphAt s.cfg (if sgnOf s.fmt = true ∧ p.val = f + 1 then 20 else 21))) ∧
      exec .enc s = .next { s with
        opc := 0x9, imm := 0, busy := false, hung := false, stp := n, seq := q, bcd := 0 }

/-- `ENC` and overflow (R156). On the condition `OVF` is set, the operation completes, `SEQ` is anything at all (`q` is left open), and
nothing else changes but the sequencer's own registers; `OVF` rises on no other input. With the sign a magnitude from 10 000 000 up always
overflows, a smaller one never does where `DP` is not 7, and every one does where `DP = 7` with the default `BLANK_DP_ZERO`. -/
def Obligations.EncOverflowIsAsWritten : Prop :=
  ∀ s : State, s.quiet = true →
    (s.overflows → ∃ (q : Vector Byte 8) (n d : Nat), exec .enc s = .next { s with
      opc := 0x9, imm := 0, busy := false, hung := false, stp := n, seq := q, bcd := 0, ovf := true, draws := d }) ∧
    (∀ t, exec .enc s = .next t → (t.ovf = true ↔ s.ovf = true ∨ s.overflows)) ∧
    (sgnOf s.fmt = true → 10000000 ≤ s.mag.toNat → s.overflows) ∧
    (sgnOf s.fmt = true → dpOf s.fmt ≠ 7 → s.mag.toNat < 10000000 → ¬ s.overflows) ∧
    (sgnOf s.fmt = true → dpOf s.fmt = 7 → s.cfg.blankDpZero = false → s.overflows) ∧
    (sgnOf s.fmt = false → (s.overflows ↔ 99999999 < s.mag.toNat))

/-- The three properties of R158 with the default switch, for any glyph table. -/
def Obligations.EncExamplesOfTheSource : Prop :=
  ∀ g : Vector Byte 22,
    let start : State := { State.reset with cfg := { Cfg.default with glyph := g } }
    (∃ t, exec .enc { start with mag := 0, fmt := 0x00 } = .next t ∧
      t.seq = #v[g[0], g[21], g[21], g[21], g[21], g[21], g[21], g[21]]) ∧
    (∃ t, exec .enc { start with mag := 205, fmt := 0x81 } = .next t ∧
      t.seq = #v[g[5], g[10], g[2], g[20], g[21], g[21], g[21], g[21]]) ∧
    (∃ t, exec .enc { start with mag := 9999, fmt := 0x00 } = .next t ∧
      t.seq = #v[g[9], g[9], g[9], g[9], g[21], g[21], g[21], g[21]])

/-- An `ENC` that follows a `CVT1` or a `CVT2` never raises `OVF` (R160). -/
def Obligations.EncAfterAConversionNeverOverflows : Prop :=
  ∀ (i : Instr) (s t u : State), i = .cvt1 ∨ i = .cvt2 → s.cfg.wf = true → s.quiet = true →
    exec i s = .next t → exec .enc t = .next u → u.ovf = s.ovf

/-- `DPUT` (R162), word 0x0A00: the eight pairs in ascending position, whatever `SEQ` holds, nothing else changed but the sequencer's own
registers. -/
def Obligations.DputPushesTheSequence : Prop :=
  decode 0x0A00 = .ok .dput ∧
  ∀ s : State, s.quiet = true →
    ∃ n, exec .dput s = .next { s with
      opc := 0xA, imm := 0, busy := false, hung := false, stp := n,
      sink := s.sink ++ (List.finRange 8).map fun p => ⟨p, s.seq[p]⟩ }

/-! ## The whole machine -/

/-- The table of R23 and the summary of R43: which operation writes which register, whatever has landed meanwhile, as long as no reset
has. -/
def Obligations.RegistersChangeOnlyByTheirCommands : Prop :=
  ∀ (i : Instr) (s t : State), exec i s = .next t → noReset (landed s t) = true →
    (i ≠ .owrst → t.pres = s.pres) ∧ (i ≠ .owrbit → t.rbit = s.rbit) ∧
    (i ≠ .owrbyte → (∀ x, i ≠ .brev x) → t.rdata = s.rdata) ∧ t.raw = s.raw ∧
    (i ≠ .cvt1 → i ≠ .cvt2 → t.mag = s.mag ∧ t.fmt = s.fmt) ∧ (i ≠ .enc → t.seq = s.seq ∧ t.ovf = s.ovf) ∧ t.ill = s.ill

/-- The fault flags are sticky and steer nothing (R29): no step in which no reset lands clears one, and with other flags at its start an operation
that the host leaves alone does all the same but for the flags themselves. -/
def Obligations.FaultFlagsStayAndSteerNothing : Prop :=
  (∀ s t : State, step s = .next t → noReset (landed s t) = true →
    (s.ovf = true → t.ovf = true) ∧ (s.ill = true → t.ill = true) ∧ (s.cerr = true → t.cerr = true)) ∧
  (∀ (i : Instr) (s t : State) (a b c : Bool), s.quiet = true → exec i s = .next t →
    ∃ o, exec i { s with ovf := a, ill := b, cerr := c } = .next { t with ovf := o, ill := b, cerr := c })

/-- The traces only grow between resets (R75, R100): in every step in which no reset lands. -/
def Obligations.TracesOnlyGrow : Prop :=
  ∀ s t : State, step s = .next t → noReset (landed s t) = true → s.lt <+: t.lt ∧ s.sink <+: t.sink

/-- No step changes the configuration, so none changes the glyph table (R36, R194). -/
def Obligations.ConfigurationNeverChanges : Prop :=
  ∀ s t : State, step s = .next t → t.cfg = s.cfg

/-- Host accesses that land while an operation runs do not disturb it in any way (R174): without them every register and both traces
would be the same, but for what the host itself read, and for `CERR`, which is set exactly by the writes among those that landed. -/
def Obligations.HostAccessesDoNotDisturbAnOperation : Prop :=
  ∀ (i : Instr) (s t u : State), (∀ e ∈ s.inputs, isHostAccess e.input = true) →
    exec i s = .next t → exec i { s with inputs := [] } = .next u →
    { t with inputs := [], cerr := u.cerr, got := u.got } = u ∧
    t.cerr = (s.cerr || (landed s t).any fun e => isHostWrite e.input)

/-- A host that waits for `BUSY = 0` and writes legal words never sees `ILL` or `CERR` rise (R172, R200), whatever the devices and the
platform do and whenever they do it. -/
def Obligations.PoliteHostSeesNoAccessFault : Prop :=
  ∀ s t : State, (∀ e ∈ s.inputs, politeArrival e = true) → step s = .next t →
    (t.ill = true → s.ill = true) ∧ (t.cerr = true → s.cerr = true) ∧ ∀ e ∈ t.inputs, politeArrival e = true

/-- The bus environment can set no fault flag (R172): whatever it answers and holds, the flags come out the same, where `WEDGE_HANGS` is
false. -/
def Obligations.EnvironmentCannotSetAFaultFlag : Prop :=
  ∀ (i : Instr) (s t u : State) (levels : List Bool) (held : Bool), s.cfg.wedgeHangs = false →
    exec i s = .next t → exec i { s with levels := levels, held := held } = .next u →
    t.ovf = u.ovf ∧ t.ill = u.ill ∧ t.cerr = u.cerr

/-- One transition and primitive by primitive come to the same (R42): from the accepted state, steps of the sequencer and landing inputs
reach the state `exec` gives. -/
def Obligations.AtomicAndStepwiseRunsAgree : Prop :=
  ∀ (i : Instr) (s t : State), i.wf = true → exec i s = .next t →
    ∃ n, Host.Core.run Sys2Proof.core n (s.started i) = .next t

/-- Every step keeps the invariant: the configuration's constraints, `FMT`'s reserved bits, and that `BUSY`, `DRV`, `BITCNT` and `STEP`
agree; in particular the line is released whenever `BUSY = 0` (R39). -/
def Obligations.EveryStepKeepsTheInvariant : Prop :=
  ∀ s t : State, s.Inv → step s = .next t → t.Inv

/-- The invariant holds at reset. -/
def Obligations.ResetMeetsTheInvariant : Prop :=
  State.reset.Inv

/-- From a state that meets the invariant a step stops in one way only, the stuck sequencer of `WEDGE_HANGS` (R133, R205); where that
switch is false every step answers a next state. -/
def Obligations.OnlyTheWedgeStopsTheMachine : Prop :=
  ∀ s : State, s.Inv →
    (∃ t, step s = .next t) ∨ (s.cfg.wedgeHangs = true ∧ s.hung = true ∧ step s = .fault .busWedged)

/-- Every operation ends (R205), whatever the environment answers and whatever lands: with `BUSY = 0`, the line released and the bit
counter 0 (R39, R40), or, a bus operation under `WEDGE_HANGS` only, stuck (R133). It ends with `BUSY = 0` where that switch is false, where
it does not use the line, and where the line reads high and nothing lands. -/
def Obligations.EveryOperationEnds : Prop :=
  ∀ (i : Instr) (s : State), i.wf = true → s.Inv → s.busy = false →
    ∃ t, exec i s = .next t ∧
      ((t.busy = false ∧ t.atRest) ∨ (t.busy = true ∧ t.stuck ∧ isBusOp i = true)) ∧
      (s.cfg.wedgeHangs = false ∨ isBusOp i = false ∨ (s.quiet = true ∧ s.lineUsable = true) → t.busy = false)
end

