-- ==== Sys2Proof/Laws/State.lean ====
section
/-! SUPPORT. One lemma per field per named update of State, true by definition, so that no later proof unfolds a record update. -/

namespace Sys2Proof.Machine

/-! `State.emit` -/

@[simp] theorem emit_cfg (e : LineEvent) (s : State) : (s.emit e).cfg = s.cfg := rfl
@[simp] theorem emit_busy (e : LineEvent) (s : State) : (s.emit e).busy = s.busy := rfl
@[simp] theorem emit_pres (e : LineEvent) (s : State) : (s.emit e).pres = s.pres := rfl
@[simp] theorem emit_rbit (e : LineEvent) (s : State) : (s.emit e).rbit = s.rbit := rfl
@[simp] theorem emit_ovf (e : LineEvent) (s : State) : (s.emit e).ovf = s.ovf := rfl
@[simp] theorem emit_ill (e : LineEvent) (s : State) : (s.emit e).ill = s.ill := rfl
@[simp] theorem emit_cerr (e : LineEvent) (s : State) : (s.emit e).cerr = s.cerr := rfl
@[simp] theorem emit_rdata (e : LineEvent) (s : State) : (s.emit e).rdata = s.rdata := rfl
@[simp] theorem emit_raw (e : LineEvent) (s : State) : (s.emit e).raw = s.raw := rfl
@[simp] theorem emit_mag (e : LineEvent) (s : State) : (s.emit e).mag = s.mag := rfl
@[simp] theorem emit_fmt (e : LineEvent) (s : State) : (s.emit e).fmt = s.fmt := rfl
@[simp] theorem emit_seq (e : LineEvent) (s : State) : (s.emit e).seq = s.seq := rfl
@[simp] theorem emit_drv (e : LineEvent) (s : State) : (s.emit e).drv = s.drv := rfl
@[simp] theorem emit_sr (e : LineEvent) (s : State) : (s.emit e).sr = s.sr := rfl
@[simp] theorem emit_bitcnt (e : LineEvent) (s : State) : (s.emit e).bitcnt = s.bitcnt := rfl
@[simp] theorem emit_bcd (e : LineEvent) (s : State) : (s.emit e).bcd = s.bcd := rfl
@[simp] theorem emit_opc (e : LineEvent) (s : State) : (s.emit e).opc = s.opc := rfl
@[simp] theorem emit_imm (e : LineEvent) (s : State) : (s.emit e).imm = s.imm := rfl
@[simp] theorem emit_stp (e : LineEvent) (s : State) : (s.emit e).stp = s.stp := rfl
@[simp] theorem emit_smp (e : LineEvent) (s : State) : (s.emit e).smp = s.smp := rfl
@[simp] theorem emit_hung (e : LineEvent) (s : State) : (s.emit e).hung = s.hung := rfl
@[simp] theorem emit_draws (e : LineEvent) (s : State) : (s.emit e).draws = s.draws := rfl
@[simp] theorem emit_lt (e : LineEvent) (s : State) : (s.emit e).lt = s.lt ++ [e] := rfl
@[simp] theorem emit_sink (e : LineEvent) (s : State) : (s.emit e).sink = s.sink := rfl
@[simp] theorem emit_inputs (e : LineEvent) (s : State) : (s.emit e).inputs = s.inputs := rfl
@[simp] theorem emit_levels (e : LineEvent) (s : State) : (s.emit e).levels = s.levels := rfl
@[simp] theorem emit_held (e : LineEvent) (s : State) : (s.emit e).held = s.held := rfl
@[simp] theorem emit_got (e : LineEvent) (s : State) : (s.emit e).got = s.got := rfl

/-! `State.driveLow` -/

@[simp] theorem driveLow_cfg (s : State) : s.driveLow.cfg = s.cfg := rfl
@[simp] theorem driveLow_busy (s : State) : s.driveLow.busy = s.busy := rfl
@[simp] theorem driveLow_pres (s : State) : s.driveLow.pres = s.pres := rfl
@[simp] theorem driveLow_rbit (s : State) : s.driveLow.rbit = s.rbit := rfl
@[simp] theorem driveLow_ovf (s : State) : s.driveLow.ovf = s.ovf := rfl
@[simp] theorem driveLow_ill (s : State) : s.driveLow.ill = s.ill := rfl
@[simp] theorem driveLow_cerr (s : State) : s.driveLow.cerr = s.cerr := rfl
@[simp] theorem driveLow_rdata (s : State) : s.driveLow.rdata = s.rdata := rfl
@[simp] theorem driveLow_raw (s : State) : s.driveLow.raw = s.raw := rfl
@[simp] theorem driveLow_mag (s : State) : s.driveLow.mag = s.mag := rfl
@[simp] theorem driveLow_fmt (s : State) : s.driveLow.fmt = s.fmt := rfl
@[simp] theorem driveLow_seq (s : State) : s.driveLow.seq = s.seq := rfl
@[simp] theorem driveLow_drv (s : State) : s.driveLow.drv = true := rfl
@[simp] theorem driveLow_sr (s : State) : s.driveLow.sr = s.sr := rfl
@[simp] theorem driveLow_bitcnt (s : State) : s.driveLow.bitcnt = s.bitcnt := rfl
@[simp] theorem driveLow_bcd (s : State) : s.driveLow.bcd = s.bcd := rfl
@[simp] theorem driveLow_opc (s : State) : s.driveLow.opc = s.opc := rfl
@[simp] theorem driveLow_imm (s : State) : s.driveLow.imm = s.imm := rfl
@[simp] theorem driveLow_stp (s : State) : s.driveLow.stp = s.stp := rfl
@[simp] theorem driveLow_smp (s : State) : s.driveLow.smp = s.smp := rfl
@[simp] theorem driveLow_hung (s : State) : s.driveLow.hung = s.hung := rfl
@[simp] theorem driveLow_draws (s : State) : s.driveLow.draws = s.draws := rfl
@[simp] theorem driveLow_lt (s : State) : s.driveLow.lt = s.lt ++ [.low] := rfl
@[simp] theorem driveLow_sink (s : State) : s.driveLow.sink = s.sink := rfl
@[simp] theorem driveLow_inputs (s : State) : s.driveLow.inputs = s.inputs := rfl
@[simp] theorem driveLow_levels (s : State) : s.driveLow.levels = s.levels := rfl
@[simp] theorem driveLow_held (s : State) : s.driveLow.held = s.held := rfl
@[simp] theorem driveLow_got (s : State) : s.driveLow.got = s.got := rfl

/-! `State.release` -/

@[simp] theorem release_cfg (s : State) : s.release.cfg = s.cfg := rfl
@[simp] theorem release_busy (s : State) : s.release.busy = s.busy := rfl
@[simp] theorem release_pres (s : State) : s.release.pres = s.pres := rfl
@[simp] theorem release_rbit (s : State) : s.release.rbit = s.rbit := rfl
@[simp] theorem release_ovf (s : State) : s.release.ovf = s.ovf := rfl
@[simp] theorem release_ill (s : State) : s.release.ill = s.ill := rfl
@[simp] theorem release_cerr (s : State) : s.release.cerr = s.cerr := rfl
@[simp] theorem release_rdata (s : State) : s.release.rdata = s.rdata := rfl
@[simp] theorem release_raw (s : State) : s.release.raw = s.raw := rfl
@[simp] theorem release_mag (s : State) : s.release.mag = s.mag := rfl
@[simp] theorem release_fmt (s : State) : s.release.fmt = s.fmt := rfl
@[simp] theorem release_seq (s : State) : s.release.seq = s.seq := rfl
@[simp] theorem release_drv (s : State) : s.release.drv = false := rfl
@[simp] theorem release_sr (s : State) : s.release.sr = s.sr := rfl
@[simp] theorem release_bitcnt (s : State) : s.release.bitcnt = s.bitcnt := rfl
@[simp] theorem release_bcd (s : State) : s.release.bcd = s.bcd := rfl
@[simp] theorem release_opc (s : State) : s.release.opc = s.opc := rfl
@[simp] theorem release_imm (s : State) : s.release.imm = s.imm := rfl
@[simp] theorem release_stp (s : State) : s.release.stp = s.stp := rfl
@[simp] theorem release_smp (s : State) : s.release.smp = s.smp := rfl
@[simp] theorem release_hung (s : State) : s.release.hung = s.hung := rfl
@[simp] theorem release_draws (s : State) : s.release.draws = s.draws := rfl
@[simp] theorem release_lt (s : State) : s.release.lt = s.lt ++ [.rel] := rfl
@[simp] theorem release_sink (s : State) : s.release.sink = s.sink := rfl
@[simp] theorem release_inputs (s : State) : s.release.inputs = s.inputs := rfl
@[simp] theorem release_levels (s : State) : s.release.levels = s.levels := rfl
@[simp] theorem release_held (s : State) : s.release.held = s.held := rfl
@[simp] theorem release_got (s : State) : s.release.got = s.got := rfl

/-! `State.waitFor` -/

@[simp] theorem waitFor_cfg (n : Nat) (s : State) : (s.waitFor n).cfg = s.cfg := rfl
@[simp] theorem waitFor_busy (n : Nat) (s : State) : (s.waitFor n).busy = s.busy := rfl
@[simp] theorem waitFor_pres (n : Nat) (s : State) : (s.waitFor n).pres = s.pres := rfl
@[simp] theorem waitFor_rbit (n : Nat) (s : State) : (s.waitFor n).rbit = s.rbit := rfl
@[simp] theorem waitFor_ovf (n : Nat) (s : State) : (s.waitFor n).ovf = s.ovf := rfl
@[simp] theorem waitFor_ill (n : Nat) (s : State) : (s.waitFor n).ill = s.ill := rfl
@[simp] theorem waitFor_cerr (n : Nat) (s : State) : (s.waitFor n).cerr = s.cerr := rfl
@[simp] theorem waitFor_rdata (n : Nat) (s : State) : (s.waitFor n).rdata = s.rdata := rfl
@[simp] theorem waitFor_raw (n : Nat) (s : State) : (s.waitFor n).raw = s.raw := rfl
@[simp] theorem waitFor_mag (n : Nat) (s : State) : (s.waitFor n).mag = s.mag := rfl
@[simp] theorem waitFor_fmt (n : Nat) (s : State) : (s.waitFor n).fmt = s.fmt := rfl
@[simp] theorem waitFor_seq (n : Nat) (s : State) : (s.waitFor n).seq = s.seq := rfl
@[simp] theorem waitFor_drv (n : Nat) (s : State) : (s.waitFor n).drv = s.drv := rfl
@[simp] theorem waitFor_sr (n : Nat) (s : State) : (s.waitFor n).sr = s.sr := rfl
@[simp] theorem waitFor_bitcnt (n : Nat) (s : State) : (s.waitFor n).bitcnt = s.bitcnt := rfl
@[simp] theorem waitFor_bcd (n : Nat) (s : State) : (s.waitFor n).bcd = s.bcd := rfl
@[simp] theorem waitFor_opc (n : Nat) (s : State) : (s.waitFor n).opc = s.opc := rfl
@[simp] theorem waitFor_imm (n : Nat) (s : State) : (s.waitFor n).imm = s.imm := rfl
@[simp] theorem waitFor_stp (n : Nat) (s : State) : (s.waitFor n).stp = s.stp := rfl
@[simp] theorem waitFor_smp (n : Nat) (s : State) : (s.waitFor n).smp = s.smp := rfl
@[simp] theorem waitFor_hung (n : Nat) (s : State) : (s.waitFor n).hung = s.hung := rfl
@[simp] theorem waitFor_draws (n : Nat) (s : State) : (s.waitFor n).draws = s.draws := rfl
@[simp] theorem waitFor_lt (n : Nat) (s : State) : (s.waitFor n).lt = s.lt ++ [.wait n] := rfl
@[simp] theorem waitFor_sink (n : Nat) (s : State) : (s.waitFor n).sink = s.sink := rfl
@[simp] theorem waitFor_inputs (n : Nat) (s : State) : (s.waitFor n).inputs = s.inputs := rfl
@[simp] theorem waitFor_levels (n : Nat) (s : State) : (s.waitFor n).levels = s.levels := rfl
@[simp] theorem waitFor_held (n : Nat) (s : State) : (s.waitFor n).held = s.held := rfl
@[simp] theorem waitFor_got (n : Nat) (s : State) : (s.waitFor n).got = s.got := rfl

/-! `State.sense` -/

@[simp] theorem sense_cfg (s : State) : s.sense.cfg = s.cfg := rfl
@[simp] theorem sense_busy (s : State) : s.sense.busy = s.busy := rfl
@[simp] theorem sense_pres (s : State) : s.sense.pres = s.pres := rfl
@[simp] theorem sense_rbit (s : State) : s.sense.rbit = s.rbit := rfl
@[simp] theorem sense_ovf (s : State) : s.sense.ovf = s.ovf := rfl
@[simp] theorem sense_ill (s : State) : s.sense.ill = s.ill := rfl
@[simp] theorem sense_cerr (s : State) : s.sense.cerr = s.cerr := rfl
@[simp] theorem sense_rdata (s : State) : s.sense.rdata = s.rdata := rfl
@[simp] theorem sense_raw (s : State) : s.sense.raw = s.raw := rfl
@[simp] theorem sense_mag (s : State) : s.sense.mag = s.mag := rfl
@[simp] theorem sense_fmt (s : State) : s.sense.fmt = s.fmt := rfl
@[simp] theorem sense_seq (s : State) : s.sense.seq = s.seq := rfl
@[simp] theorem sense_drv (s : State) : s.sense.drv = s.drv := rfl
@[simp] theorem sense_sr (s : State) : s.sense.sr = s.sr := rfl
@[simp] theorem sense_bitcnt (s : State) : s.sense.bitcnt = s.bitcnt := rfl
@[simp] theorem sense_bcd (s : State) : s.sense.bcd = s.bcd := rfl
@[simp] theorem sense_opc (s : State) : s.sense.opc = s.opc := rfl
@[simp] theorem sense_imm (s : State) : s.sense.imm = s.imm := rfl
@[simp] theorem sense_stp (s : State) : s.sense.stp = s.stp := rfl
@[simp] theorem sense_smp (s : State) : s.sense.smp = s.lineLevel := rfl
@[simp] theorem sense_hung (s : State) : s.sense.hung = s.hung := rfl
@[simp] theorem sense_draws (s : State) : s.sense.draws = s.draws := rfl
@[simp] theorem sense_lt (s : State) : s.sense.lt = s.lt ++ [.sample s.lineLevel] := rfl
@[simp] theorem sense_sink (s : State) : s.sense.sink = s.sink := rfl
@[simp] theorem sense_inputs (s : State) : s.sense.inputs = s.inputs := rfl
@[simp] theorem sense_levels (s : State) : s.sense.levels = s.levels.tail := rfl
@[simp] theorem sense_held (s : State) : s.sense.held = s.held := rfl
@[simp] theorem sense_got (s : State) : s.sense.got = s.got := rfl

/-! `State.put` -/

@[simp] theorem put_cfg (p : Fin 8) (c : Byte) (s : State) : (s.put p c).cfg = s.cfg := rfl
@[simp] theorem put_busy (p : Fin 8) (c : Byte) (s : State) : (s.put p c).busy = s.busy := rfl
@[simp] theorem put_pres (p : Fin 8) (c : Byte) (s : State) : (s.put p c).pres = s.pres := rfl
@[simp] theorem put_rbit (p : Fin 8) (c : Byte) (s : State) : (s.put p c).rbit = s.rbit := rfl
@[simp] theorem put_ovf (p : Fin 8) (c : Byte) (s : State) : (s.put p c).ovf = s.ovf := rfl
@[simp] theorem put_ill (p : Fin 8) (c : Byte) (s : State) : (s.put p c).ill = s.ill := rfl
@[simp] theorem put_cerr (p : Fin 8) (c : Byte) (s : State) : (s.put p c).cerr = s.cerr := rfl
@[simp] theorem put_rdata (p : Fin 8) (c : Byte) (s : State) : (s.put p c).rdata = s.rdata := rfl
@[simp] theorem put_raw (p : Fin 8) (c : Byte) (s : State) : (s.put p c).raw = s.raw := rfl
@[simp] theorem put_mag (p : Fin 8) (c : Byte) (s : State) : (s.put p c).mag = s.mag := rfl
@[simp] theorem put_fmt (p : Fin 8) (c : Byte) (s : State) : (s.put p c).fmt = s.fmt := rfl
@[simp] theorem put_seq (p : Fin 8) (c : Byte) (s : State) : (s.put p c).seq = s.seq := rfl
@[simp] theorem put_drv (p : Fin 8) (c : Byte) (s : State) : (s.put p c).drv = s.drv := rfl
@[simp] theorem put_sr (p : Fin 8) (c : Byte) (s : State) : (s.put p c).sr = s.sr := rfl
@[simp] theorem put_bitcnt (p : Fin 8) (c : Byte) (s : State) : (s.put p c).bitcnt = s.bitcnt := rfl
@[simp] theorem put_bcd (p : Fin 8) (c : Byte) (s : State) : (s.put p c).bcd = s.bcd := rfl
@[simp] theorem put_opc (p : Fin 8) (c : Byte) (s : State) : (s.put p c).opc = s.opc := rfl
@[simp] theorem put_imm (p : Fin 8) (c : Byte) (s : State) : (s.put p c).imm = s.imm := rfl
@[simp] theorem put_stp (p : Fin 8) (c : Byte) (s : State) : (s.put p c).stp = s.stp := rfl
@[simp] theorem put_smp (p : Fin 8) (c : Byte) (s : State) : (s.put p c).smp = s.smp := rfl
@[simp] theorem put_hung (p : Fin 8) (c : Byte) (s : State) : (s.put p c).hung = s.hung := rfl
@[simp] theorem put_draws (p : Fin 8) (c : Byte) (s : State) : (s.put p c).draws = s.draws := rfl
@[simp] theorem put_lt (p : Fin 8) (c : Byte) (s : State) : (s.put p c).lt = s.lt := rfl
@[simp] theorem put_sink (p : Fin 8) (c : Byte) (s : State) : (s.put p c).sink = s.sink ++ [⟨p, c⟩] := rfl
@[simp] theorem put_inputs (p : Fin 8) (c : Byte) (s : State) : (s.put p c).inputs = s.inputs := rfl
@[simp] theorem put_levels (p : Fin 8) (c : Byte) (s : State) : (s.put p c).levels = s.levels := rfl
@[simp] theorem put_held (p : Fin 8) (c : Byte) (s : State) : (s.put p c).held = s.held := rfl
@[simp] theorem put_got (p : Fin 8) (c : Byte) (s : State) : (s.put p c).got = s.got := rfl

/-! `State.storeScaled` -/

@[simp] theorem storeScaled_cfg (n : Int) (s : State) : (s.storeScaled n).cfg = s.cfg := rfl
@[simp] theorem storeScaled_busy (n : Int) (s : State) : (s.storeScaled n).busy = s.busy := rfl
@[simp] theorem storeScaled_pres (n : Int) (s : State) : (s.storeScaled n).pres = s.pres := rfl
@[simp] theorem storeScaled_rbit (n : Int) (s : State) : (s.storeScaled n).rbit = s.rbit := rfl
@[simp] theorem storeScaled_ovf (n : Int) (s : State) : (s.storeScaled n).ovf = s.ovf := rfl
@[simp] theorem storeScaled_ill (n : Int) (s : State) : (s.storeScaled n).ill = s.ill := rfl
@[simp] theorem storeScaled_cerr (n : Int) (s : State) : (s.storeScaled n).cerr = s.cerr := rfl
@[simp] theorem storeScaled_rdata (n : Int) (s : State) : (s.storeScaled n).rdata = s.rdata := rfl
@[simp] theorem storeScaled_raw (n : Int) (s : State) : (s.storeScaled n).raw = s.raw := rfl
@[simp] theorem storeScaled_mag (n : Int) (s : State) : (s.storeScaled n).mag = BitVec.ofNat 32 (n.natAbs / 8) := rfl
@[simp] theorem storeScaled_fmt (n : Int) (s : State) : (s.storeScaled n).fmt = fmtValue (decide (n < 0)) 1 := rfl
@[simp] theorem storeScaled_seq (n : Int) (s : State) : (s.storeScaled n).seq = s.seq := rfl
@[simp] theorem storeScaled_drv (n : Int) (s : State) : (s.storeScaled n).drv = s.drv := rfl
@[simp] theorem storeScaled_sr (n : Int) (s : State) : (s.storeScaled n).sr = s.sr := rfl
@[simp] theorem storeScaled_bitcnt (n : Int) (s : State) : (s.storeScaled n).bitcnt = s.bitcnt := rfl
@[simp] theorem storeScaled_bcd (n : Int) (s : State) : (s.storeScaled n).bcd = s.bcd := rfl
@[simp] theorem storeScaled_opc (n : Int) (s : State) : (s.storeScaled n).opc = s.opc := rfl
@[simp] theorem storeScaled_imm (n : Int) (s : State) : (s.storeScaled n).imm = s.imm := rfl
@[simp] theorem storeScaled_stp (n : Int) (s : State) : (s.storeScaled n).stp = s.stp := rfl
@[simp] theorem storeScaled_smp (n : Int) (s : State) : (s.storeScaled n).smp = s.smp := rfl
@[simp] theorem storeScaled_hung (n : Int) (s : State) : (s.storeScaled n).hung = s.hung := rfl
@[simp] theorem storeScaled_draws (n : Int) (s : State) : (s.storeScaled n).draws = s.draws := rfl
@[simp] theorem storeScaled_lt (n : Int) (s : State) : (s.storeScaled n).lt = s.lt := rfl
@[simp] theorem storeScaled_sink (n : Int) (s : State) : (s.storeScaled n).sink = s.sink := rfl
@[simp] theorem storeScaled_inputs (n : Int) (s : State) : (s.storeScaled n).inputs = s.inputs := rfl
@[simp] theorem storeScaled_levels (n : Int) (s : State) : (s.storeScaled n).levels = s.levels := rfl
@[simp] theorem storeScaled_held (n : Int) (s : State) : (s.storeScaled n).held = s.held := rfl
@[simp] theorem storeScaled_got (n : Int) (s : State) : (s.storeScaled n).got = s.got := rfl

/-! `State.questioned` -/

@[simp] theorem questioned_cfg (s : State) : s.questioned.cfg = s.cfg := rfl
@[simp] theorem questioned_busy (s : State) : s.questioned.busy = s.busy := rfl
@[simp] theorem questioned_pres (s : State) : s.questioned.pres = s.pres := rfl
@[simp] theorem questioned_rbit (s : State) : s.questioned.rbit = s.rbit := rfl
@[simp] theorem questioned_ovf (s : State) : s.questioned.ovf = s.ovf := rfl
@[simp] theorem questioned_ill (s : State) : s.questioned.ill = s.ill := rfl
@[simp] theorem questioned_cerr (s : State) : s.questioned.cerr = s.cerr := rfl
@[simp] theorem questioned_rdata (s : State) : s.questioned.rdata = s.rdata := rfl
@[simp] theorem questioned_raw (s : State) : s.questioned.raw = s.raw := rfl
@[simp] theorem questioned_mag (s : State) : s.questioned.mag = s.mag := rfl
@[simp] theorem questioned_fmt (s : State) : s.questioned.fmt = s.fmt := rfl
@[simp] theorem questioned_seq (s : State) : s.questioned.seq = s.seq := rfl
@[simp] theorem questioned_drv (s : State) : s.questioned.drv = s.drv := rfl
@[simp] theorem questioned_sr (s : State) : s.questioned.sr = s.sr := rfl
@[simp] theorem questioned_bitcnt (s : State) : s.questioned.bitcnt = s.bitcnt := rfl
@[simp] theorem questioned_bcd (s : State) : s.questioned.bcd = s.bcd := rfl
@[simp] theorem questioned_opc (s : State) : s.questioned.opc = s.opc := rfl
@[simp] theorem questioned_imm (s : State) : s.questioned.imm = s.imm := rfl
@[simp] theorem questioned_stp (s : State) : s.questioned.stp = s.stp := rfl
@[simp] theorem questioned_smp (s : State) : s.questioned.smp = s.smp := rfl
@[simp] theorem questioned_hung (s : State) : s.questioned.hung = s.hung := rfl
@[simp] theorem questioned_draws (s : State) : s.questioned.draws = s.draws := rfl
@[simp] theorem questioned_lt (s : State) : s.questioned.lt = s.lt := rfl
@[simp] theorem questioned_sink (s : State) : s.questioned.sink = s.sink := rfl
@[simp] theorem questioned_inputs (s : State) : s.questioned.inputs = s.inputs := rfl
@[simp] theorem questioned_held (s : State) : s.questioned.held = s.held := rfl
@[simp] theorem questioned_got (s : State) : s.questioned.got = s.got := rfl
@[simp] theorem questioned_levels (s : State) :
    s.questioned.levels = if s.cfg.wedgeHangs then s.levels.tail else s.levels := rfl

/-! `State.begin` -/

@[simp] theorem begin_cfg (o : BitVec 4) (m : Byte) (s : State) : (s.begin o m).cfg = s.cfg := rfl
@[simp] theorem begin_busy (o : BitVec 4) (m : Byte) (s : State) : (s.begin o m).busy = true := rfl
@[simp] theorem begin_pres (o : BitVec 4) (m : Byte) (s : State) : (s.begin o m).pres = s.pres := rfl
@[simp] theorem begin_rbit (o : BitVec 4) (m : Byte) (s : State) : (s.begin o m).rbit = s.rbit := rfl
@[simp] theorem begin_ovf (o : BitVec 4) (m : Byte) (s : State) : (s.begin o m).ovf = s.ovf := rfl
@[simp] theorem begin_ill (o : BitVec 4) (m : Byte) (s : State) : (s.begin o m).ill = s.ill := rfl
@[simp] theorem begin_cerr (o : BitVec 4) (m : Byte) (s : State) : (s.begin o m).cerr = s.cerr := rfl
@[simp] theorem begin_rdata (o : BitVec 4) (m : Byte) (s : State) : (s.begin o m).rdata = s.rdata := rfl
@[simp] theorem begin_raw (o : BitVec 4) (m : Byte) (s : State) : (s.begin o m).raw = s.raw := rfl
@[simp] theorem begin_mag (o : BitVec 4) (m : Byte) (s : State) : (s.begin o m).mag = s.mag := rfl
@[simp] theorem begin_fmt (o : BitVec 4) (m : Byte) (s : State) : (s.begin o m).fmt = s.fmt := rfl
@[simp] theorem begin_seq (o : BitVec 4) (m : Byte) (s : State) : (s.begin o m).seq = s.seq := rfl
@[simp] theorem begin_drv (o : BitVec 4) (m : Byte) (s : State) : (s.begin o m).drv = s.drv := rfl
@[simp] theorem begin_sr (o : BitVec 4) (m : Byte) (s : State) : (s.begin o m).sr = s.sr := rfl
@[simp] theorem begin_bitcnt (o : BitVec 4) (m : Byte) (s : State) : (s.begin o m).bitcnt = s.bitcnt := rfl
@[simp] theorem begin_bcd (o : BitVec 4) (m : Byte) (s : State) : (s.begin o m).bcd = s.bcd := rfl
@[simp] theorem begin_opc (o : BitVec 4) (m : Byte) (s : State) : (s.begin o m).opc = o := rfl
@[simp] theorem begin_imm (o : BitVec 4) (m : Byte) (s : State) : (s.begin o m).imm = m := rfl
@[simp] theorem begin_stp (o : BitVec 4) (m : Byte) (s : State) : (s.begin o m).stp = 0 := rfl
@[simp] theorem begin_smp (o : BitVec 4) (m : Byte) (s : State) : (s.begin o m).smp = s.smp := rfl
@[simp] theorem begin_hung (o : BitVec 4) (m : Byte) (s : State) : (s.begin o m).hung = false := rfl
@[simp] theorem begin_draws (o : BitVec 4) (m : Byte) (s : State) : (s.begin o m).draws = s.draws := rfl
@[simp] theorem begin_lt (o : BitVec 4) (m : Byte) (s : State) : (s.begin o m).lt = s.lt := rfl
@[simp] theorem begin_sink (o : BitVec 4) (m : Byte) (s : State) : (s.begin o m).sink = s.sink := rfl
@[simp] theorem begin_inputs (o : BitVec 4) (m : Byte) (s : State) : (s.begin o m).inputs = s.inputs := rfl
@[simp] theorem begin_levels (o : BitVec 4) (m : Byte) (s : State) : (s.begin o m).levels = s.levels := rfl
@[simp] theorem begin_held (o : BitVec 4) (m : Byte) (s : State) : (s.begin o m).held = s.held := rfl
@[simp] theorem begin_got (o : BitVec 4) (m : Byte) (s : State) : (s.begin o m).got = s.got := rfl

/-! `State.raise` -/

@[simp] theorem raise_cfg (f : FaultFlag) (s : State) : (s.raise f).cfg = s.cfg := by cases f <;> rfl
@[simp] theorem raise_busy (f : FaultFlag) (s : State) : (s.raise f).busy = s.busy := by cases f <;> rfl
@[simp] theorem raise_pres (f : FaultFlag) (s : State) : (s.raise f).pres = s.pres := by cases f <;> rfl
@[simp] theorem raise_rbit (f : FaultFlag) (s : State) : (s.raise f).rbit = s.rbit := by cases f <;> rfl
@[simp] theorem raise_ovf_ovf (s : State) : (s.raise .ovf).ovf = true := rfl
@[simp] theorem raise_ill_ovf (s : State) : (s.raise .ill).ovf = s.ovf := rfl
@[simp] theorem raise_cerr_ovf (s : State) : (s.raise .cerr).ovf = s.ovf := rfl
@[simp] theorem raise_ill_ill (s : State) : (s.raise .ill).ill = true := rfl
@[simp] theorem raise_ovf_ill (s : State) : (s.raise .ovf).ill = s.ill := rfl
@[simp] theorem raise_cerr_ill (s : State) : (s.raise .cerr).ill = s.ill := rfl
@[simp] theorem raise_cerr_cerr (s : State) : (s.raise .cerr).cerr = true := rfl
@[simp] theorem raise_ovf_cerr (s : State) : (s.raise .ovf).cerr = s.cerr := rfl
@[simp] theorem raise_ill_cerr (s : State) : (s.raise .ill).cerr = s.cerr := rfl
@[simp] theorem raise_rdata (f : FaultFlag) (s : State) : (s.raise f).rdata = s.rdata := by cases f <;> rfl
@[simp] theorem raise_raw (f : FaultFlag) (s : State) : (s.raise f).raw = s.raw := by cases f <;> rfl
@[simp] theorem raise_mag (f : FaultFlag) (s : State) : (s.raise f).mag = s.mag := by cases f <;> rfl
@[simp] theorem raise_fmt (f : FaultFlag) (s : State) : (s.raise f).fmt = s.fmt := by cases f <;> rfl
@[simp] theorem raise_seq (f : FaultFlag) (s : State) : (s.raise f).seq = s.seq := by cases f <;> rfl
@[simp] theorem raise_drv (f : FaultFlag) (s : State) : (s.raise f).drv = s.drv := by cases f <;> rfl
@[simp] theorem raise_sr (f : FaultFlag) (s : State) : (s.raise f).sr = s.sr := by cases f <;> rfl
@[simp] theorem raise_bitcnt (f : FaultFlag) (s : State) : (s.raise f).bitcnt = s.bitcnt := by cases f <;> rfl
@[simp] theorem raise_bcd (f : FaultFlag) (s : State) : (s.raise f).bcd = s.bcd := by cases f <;> rfl
@[simp] theorem raise_opc (f : FaultFlag) (s : State) : (s.raise f).opc = s.opc := by cases f <;> rfl
@[simp] theorem raise_imm (f : FaultFlag) (s : State) : (s.raise f).imm = s.imm := by cases f <;> rfl
@[simp] theorem raise_stp (f : FaultFlag) (s : State) : (s.raise f).stp = s.stp := by cases f <;> rfl
@[simp] theorem raise_smp (f : FaultFlag) (s : State) : (s.raise f).smp = s.smp := by cases f <;> rfl
@[simp] theorem raise_hung (f : FaultFlag) (s : State) : (s.raise f).hung = s.hung := by cases f <;> rfl
@[simp] theorem raise_draws (f : FaultFlag) (s : State) : (s.raise f).draws = s.draws := by cases f <;> rfl
@[simp] theorem raise_lt (f : FaultFlag) (s : State) : (s.raise f).lt = s.lt := by cases f <;> rfl
@[simp] theorem raise_sink (f : FaultFlag) (s : State) : (s.raise f).sink = s.sink := by cases f <;> rfl
@[simp] theorem raise_inputs (f : FaultFlag) (s : State) : (s.raise f).inputs = s.inputs := by cases f <;> rfl
@[simp] theorem raise_levels (f : FaultFlag) (s : State) : (s.raise f).levels = s.levels := by cases f <;> rfl
@[simp] theorem raise_held (f : FaultFlag) (s : State) : (s.raise f).held = s.held := by cases f <;> rfl
@[simp] theorem raise_got (f : FaultFlag) (s : State) : (s.raise f).got = s.got := by cases f <;> rfl

/-! `State.resetBlock` -/

@[simp] theorem resetBlock_cfg (s : State) : s.resetBlock.cfg = s.cfg := rfl
@[simp] theorem resetBlock_busy (s : State) : s.resetBlock.busy = State.reset.busy := rfl
@[simp] theorem resetBlock_pres (s : State) : s.resetBlock.pres = State.reset.pres := rfl
@[simp] theorem resetBlock_rbit (s : State) : s.resetBlock.rbit = State.reset.rbit := rfl
@[simp] theorem resetBlock_ovf (s : State) : s.resetBlock.ovf = State.reset.ovf := rfl
@[simp] theorem resetBlock_ill (s : State) : s.resetBlock.ill = State.reset.ill := rfl
@[simp] theorem resetBlock_cerr (s : State) : s.resetBlock.cerr = State.reset.cerr := rfl
@[simp] theorem resetBlock_rdata (s : State) : s.resetBlock.rdata = State.reset.rdata := rfl
@[simp] theorem resetBlock_raw (s : State) : s.resetBlock.raw = State.reset.raw := rfl
@[simp] theorem resetBlock_mag (s : State) : s.resetBlock.mag = State.reset.mag := rfl
@[simp] theorem resetBlock_fmt (s : State) : s.resetBlock.fmt = State.reset.fmt := rfl
@[simp] theorem resetBlock_seq (s : State) : s.resetBlock.seq = State.reset.seq := rfl
@[simp] theorem resetBlock_drv (s : State) : s.resetBlock.drv = State.reset.drv := rfl
@[simp] theorem resetBlock_sr (s : State) : s.resetBlock.sr = State.reset.sr := rfl
@[simp] theorem resetBlock_bitcnt (s : State) : s.resetBlock.bitcnt = State.reset.bitcnt := rfl
@[simp] theorem resetBlock_bcd (s : State) : s.resetBlock.bcd = State.reset.bcd := rfl
@[simp] theorem resetBlock_opc (s : State) : s.resetBlock.opc = State.reset.opc := rfl
@[simp] theorem resetBlock_imm (s : State) : s.resetBlock.imm = State.reset.imm := rfl
@[simp] theorem resetBlock_stp (s : State) : s.resetBlock.stp = State.reset.stp := rfl
@[simp] theorem resetBlock_smp (s : State) : s.resetBlock.smp = State.reset.smp := rfl
@[simp] theorem resetBlock_hung (s : State) : s.resetBlock.hung = State.reset.hung := rfl
@[simp] theorem resetBlock_draws (s : State) : s.resetBlock.draws = s.draws := rfl
@[simp] theorem resetBlock_lt (s : State) : s.resetBlock.lt = State.reset.lt := rfl
@[simp] theorem resetBlock_sink (s : State) : s.resetBlock.sink = State.reset.sink := rfl
@[simp] theorem resetBlock_inputs (s : State) : s.resetBlock.inputs = s.inputs := rfl
@[simp] theorem resetBlock_levels (s : State) : s.resetBlock.levels = s.levels := rfl
@[simp] theorem resetBlock_held (s : State) : s.resetBlock.held = s.held := rfl
@[simp] theorem resetBlock_got (s : State) : s.resetBlock.got = s.got := rfl

/-! `State.hostRead`: only the host's own record changes (R63). -/

@[simp] theorem hostRead_cfg (a : Nat) (s : State) : (s.hostRead a).cfg = s.cfg := rfl
@[simp] theorem hostRead_busy (a : Nat) (s : State) : (s.hostRead a).busy = s.busy := rfl
@[simp] theorem hostRead_pres (a : Nat) (s : State) : (s.hostRead a).pres = s.pres := rfl
@[simp] theorem hostRead_rbit (a : Nat) (s : State) : (s.hostRead a).rbit = s.rbit := rfl
@[simp] theorem hostRead_ovf (a : Nat) (s : State) : (s.hostRead a).ovf = s.ovf := rfl
@[simp] theorem hostRead_ill (a : Nat) (s : State) : (s.hostRead a).ill = s.ill := rfl
@[simp] theorem hostRead_cerr (a : Nat) (s : State) : (s.hostRead a).cerr = s.cerr := rfl
@[simp] theorem hostRead_rdata (a : Nat) (s : State) : (s.hostRead a).rdata = s.rdata := rfl
@[simp] theorem hostRead_raw (a : Nat) (s : State) : (s.hostRead a).raw = s.raw := rfl
@[simp] theorem hostRead_mag (a : Nat) (s : State) : (s.hostRead a).mag = s.mag := rfl
@[simp] theorem hostRead_fmt (a : Nat) (s : State) : (s.hostRead a).fmt = s.fmt := rfl
@[simp] theorem hostRead_seq (a : Nat) (s : State) : (s.hostRead a).seq = s.seq := rfl
@[simp] theorem hostRead_drv (a : Nat) (s : State) : (s.hostRead a).drv = s.drv := rfl
@[simp] theorem hostRead_sr (a : Nat) (s : State) : (s.hostRead a).sr = s.sr := rfl
@[simp] theorem hostRead_bitcnt (a : Nat) (s : State) : (s.hostRead a).bitcnt = s.bitcnt := rfl
@[simp] theorem hostRead_bcd (a : Nat) (s : State) : (s.hostRead a).bcd = s.bcd := rfl
@[simp] theorem hostRead_opc (a : Nat) (s : State) : (s.hostRead a).opc = s.opc := rfl
@[simp] theorem hostRead_imm (a : Nat) (s : State) : (s.hostRead a).imm = s.imm := rfl
@[simp] theorem hostRead_stp (a : Nat) (s : State) : (s.hostRead a).stp = s.stp := rfl
@[simp] theorem hostRead_smp (a : Nat) (s : State) : (s.hostRead a).smp = s.smp := rfl
@[simp] theorem hostRead_hung (a : Nat) (s : State) : (s.hostRead a).hung = s.hung := rfl
@[simp] theorem hostRead_draws (a : Nat) (s : State) : (s.hostRead a).draws = s.draws := rfl
@[simp] theorem hostRead_lt (a : Nat) (s : State) : (s.hostRead a).lt = s.lt := rfl
@[simp] theorem hostRead_sink (a : Nat) (s : State) : (s.hostRead a).sink = s.sink := rfl
@[simp] theorem hostRead_inputs (a : Nat) (s : State) : (s.hostRead a).inputs = s.inputs := rfl
@[simp] theorem hostRead_levels (a : Nat) (s : State) : (s.hostRead a).levels = s.levels := rfl
@[simp] theorem hostRead_held (a : Nat) (s : State) : (s.hostRead a).held = s.held := rfl

/-! The reset values of the registers (R191). -/

@[simp] theorem reset_cfg : State.reset.cfg = Cfg.default := rfl
@[simp] theorem reset_busy : State.reset.busy = false := rfl
@[simp] theorem reset_pres : State.reset.pres = false := rfl
@[simp] theorem reset_rbit : State.reset.rbit = false := rfl
@[simp] theorem reset_ovf : State.reset.ovf = false := rfl
@[simp] theorem reset_ill : State.reset.ill = false := rfl
@[simp] theorem reset_cerr : State.reset.cerr = false := rfl
@[simp] theorem reset_rdata : State.reset.rdata = 0 := rfl
@[simp] theorem reset_raw : State.reset.raw = 0 := rfl
@[simp] theorem reset_mag : State.reset.mag = 0 := rfl
@[simp] theorem reset_fmt : State.reset.fmt = 0 := rfl
@[simp] theorem reset_seq : State.reset.seq = Vector.replicate 8 0 := rfl
@[simp] theorem reset_drv : State.reset.drv = false := rfl
@[simp] theorem reset_sr : State.reset.sr = 0 := rfl
@[simp] theorem reset_bitcnt : State.reset.bitcnt = 0 := rfl
@[simp] theorem reset_bcd : State.reset.bcd = 0 := rfl
@[simp] theorem reset_opc : State.reset.opc = 0 := rfl
@[simp] theorem reset_imm : State.reset.imm = 0 := rfl
@[simp] theorem reset_stp : State.reset.stp = 0 := rfl
@[simp] theorem reset_smp : State.reset.smp = false := rfl
@[simp] theorem reset_hung : State.reset.hung = false := rfl
@[simp] theorem reset_draws : State.reset.draws = 0 := rfl
@[simp] theorem reset_lt : State.reset.lt = [] := rfl
@[simp] theorem reset_sink : State.reset.sink = [] := rfl
@[simp] theorem reset_inputs : State.reset.inputs = [] := rfl
@[simp] theorem reset_levels : State.reset.levels = [] := rfl
@[simp] theorem reset_held : State.reset.held = false := rfl
@[simp] theorem reset_got : State.reset.got = [] := rfl

end Sys2Proof.Machine
end

