-- ==== Sys2Proof/Laws/Glyph.lean ====
section
/-! SUPPORT. The operand forms and the encoder's steps: what each computes, in the words of the rules that state it. -/

namespace Sys2Proof.Machine

/-! ## Operands -/

/-- `sext` (R10) is the two's-complement reading. -/
theorem sext_eq_toInt (v : Half) : sext v = v.toInt := by
  have h := v.isLt
  simp only [sext, BitVec.toInt_eq_msb_cond, BitVec.msb_eq_getLsbD_last]
  norm_num

/-- R141: the Reading lies in -32768 to 32767. -/
theorem sext_bounds (v : Half) : -32768 ≤ sext v ∧ sext v ≤ 32767 := by
  have h1 := BitVec.toInt_lt (x := v)
  have h2 := BitVec.le_toInt (x := v)
  rw [sext_eq_toInt]
  norm_num at h1 h2
  omega

/-- The sign of the Reading is its bit 15 (R145). -/
theorem sext_neg_iff (v : Half) : sext v < 0 ↔ v.getLsbD 15 = true := by
  have h := v.isLt
  unfold sext
  split <;> simp_all

@[simp] theorem sgnOf_fmtValue (b : Bool) (d : BitVec 3) : sgnOf (fmtValue b d) = b := by
  revert b d; decide

@[simp] theorem dpOf_fmtValue (b : Bool) (d : BitVec 3) : dpOf (fmtValue b d) = d.toNat := by
  revert b d; decide

/-- The reserved bits of `FMT` are 0 in every value built of a sign and a point position (R34). -/
theorem fmtValue_reserved (b : Bool) (d : BitVec 3) : fmtValue b d &&& 0x78 = 0 := by
  revert b d; decide

/-- The bits of a value of `FMT` (R34). -/
theorem fmtValue_getLsbD (b : Bool) (d : BitVec 3) (k : Nat) (hk : k < 8) :
    (fmtValue b d).getLsbD k = if k < 3 then d.getLsbD k else (decide (k = 7) && b) := by
  revert hk; revert k; revert b d; decide

theorem dpOf_lt (fmt : Byte) : dpOf fmt < 8 := (fmt.extractLsb' 0 3).isLt

/-- The glyph of an index of the table (R36). -/
theorem glyphAt_of_lt (c : Cfg) (k : Fin 22) : glyphAt c k.val = c.glyph[k] := by
  simp [glyphAt]

/-! ## Step 1 -/

/-- The packed decimal digits of `m`, `n` of them, as a number (R149). -/
def packedNat (m : Nat) : Nat → Nat
  | 0     => 0
  | n + 1 => packedNat m n + decimalDigit m n * 16 ^ n

theorem packedNat_lt (m n : Nat) : packedNat m n < 16 ^ n := by
  induction n with
  | zero => simp [packedNat]
  | succ n ih =>
    have hd : decimalDigit m n ≤ 9 := by unfold decimalDigit; omega
    have := Nat.mul_le_mul_right (16 ^ n) hd
    simp only [packedNat, pow_succ]
    omega

theorem pack_loop (m n : Nat) (hn : n ≤ 8) :
    ((List.range n).foldl packStep (0, m)).1.toNat = packedNat m n ∧
    ((List.range n).foldl packStep (0, m)).2 = m / 10 ^ n := by
  induction n with
  | zero => simp [packedNat]
  | succ n ih =>
    obtain ⟨h1, h2⟩ := ih (by omega)
    rw [List.range_succ, List.foldl_append]
    generalize List.foldl packStep (0, m) (List.range n) = acc at h1 h2
    have hd : m / 10 ^ n % 10 ≤ 9 := by omega
    have hp := packedNat_lt m n
    have h16 : (2 : Nat) ^ (4 * n) = 16 ^ n := by rw [pow_mul]; norm_num
    have hle : (16 : Nat) ^ (n + 1) ≤ 16 ^ 8 := Nat.pow_le_pow_right (by omega) hn
    have hmul := Nat.mul_le_mul_right (16 ^ n) hd
    have hlt : m / 10 ^ n % 10 * 16 ^ n < 2 ^ 32 := by
      rw [pow_succ] at hle; norm_num at hle ⊢; omega
    refine ⟨?_, ?_⟩
    · simp only [List.foldl_cons, List.foldl_nil, packStep, packedNat, decimalDigit, BitVec.toNat_or, BitVec.toNat_shiftLeft,
        BitVec.toNat_ofNat, Nat.shiftLeft_eq, h2, h1, h16]
      rw [Nat.mod_eq_of_lt (show m / 10 ^ n % 10 < 2 ^ 32 by omega), Nat.mod_eq_of_lt hlt, Nat.or_comm]
      have := Nat.shiftLeft_add_eq_or_of_lt (show packedNat m n < 2 ^ (4 * n) by rw [h16]; exact hp) (m / 10 ^ n % 10)
      rw [Nat.shiftLeft_eq, h16] at this
      omega
    · simp [packStep, h2, Nat.div_div_eq_div_mul, pow_succ]

/-- Digit `i` of the packed number is the decimal digit of weight `10^i` (R68, R149). -/
theorem nibble_packDigits (m i : Nat) (hi : i < 8) : nibble (packDigits m).1 i = decimalDigit m i := by
  have h := (pack_loop m 8 (by omega)).1
  have hd : ∀ k, decimalDigit m k ≤ 9 := fun k => by unfold decimalDigit; omega
  have h0 := hd 0; have h1 := hd 1; have h2 := hd 2; have h3 := hd 3
  have h4 := hd 4; have h5 := hd 5; have h6 := hd 6; have h7 := hd 7
  simp only [nibble, packDigits, BitVec.toNat_ushiftRight, h, packedNat, Nat.shiftRight_eq_div_pow]
  interval_cases i <;> norm_num <;> omega

/-- What is left after eight rounds is not 0 exactly for a magnitude of more than eight digits (R148 `ovf_mag`). -/
theorem packDigits_rest (m : Nat) : (packDigits m).2 ≠ 0 ↔ 99999999 < m := by
  have h := (pack_loop m 8 (by omega)).2
  unfold packDigits
  rw [h]
  norm_num
  omega

/-! ## Step 2 -/

/-- After eight shifts `BCD` is 0 (R149). -/
@[simp] theorem shiftedOut_eq_zero (b : Word) : shiftedOut b = 0 := by
  apply BitVec.eq_of_toNat_eq
  have h := b.isLt
  have h0 : (0 : Word).toNat = 0 := rfl
  simp [shiftedOut, List.range_succ, Nat.shiftRight_eq_div_pow]
  omega

/-! ## Step 3 -/

/-- Where the scan from `n` downward stops (R152): every position above it up to `n` is blanked, and it is position 0 or one that is
kept. -/
theorem firstSignificant_spec (blank : Nat → Bool) (n : Nat) :
    firstSignificant blank n ≤ n ∧
    (firstSignificant blank n = 0 ∨ blank (firstSignificant blank n) = false) ∧
    ∀ p, firstSignificant blank n < p → p ≤ n → blank p = true := by
  induction n with
  | zero => exact ⟨le_refl _, .inl rfl, fun p h1 h2 => by simp only [firstSignificant] at h1; omega⟩
  | succ n ih =>
    simp only [firstSignificant]
    split
    · next h =>
      refine ⟨by omega, ih.2.1, fun p h1 h2 => ?_⟩
      by_cases hp : p = n + 1
      · rw [hp]; exact h
      · exact ih.2.2 p h1 (by omega)
    · next h => exact ⟨le_refl _, .inr (by simpa using h), fun p h1 h2 => by omega⟩

/-- The scan's test on the packed digits is the test on the decimal digits. -/
theorem lead0_iff (s : State) (p : Nat) (hp : p < 8) :
    lead0 s.cfg (dpOf s.fmt) p (nibble (packDigits s.mag.toNat).1 p) = true ↔ s.blankable p := by
  rw [nibble_packDigits _ _ hp]
  simp [lead0, State.blankable]
  tauto

/-- The first significant digit is unique. -/
theorem firstDigit_unique {s : State} {f g : Nat} (hf : s.firstDigit f) (hg : s.firstDigit g) : f = g := by
  obtain ⟨f1, f2, f3⟩ := hf
  obtain ⟨g1, g2, g3⟩ := hg
  by_contra hne
  rcases Nat.lt_or_gt_of_ne hne with h | h
  · rcases g2 with g2 | g2
    · omega
    · exact g2 (f3 g h g1)
  · rcases f2 with f2 | f2
    · omega
    · exact f2 (g3 f h f1)

/-- The position the encoder's scan finds is the first significant digit. -/
theorem scan_firstDigit (s : State) :
    s.firstDigit (firstSignificant (fun p => lead0 s.cfg (dpOf s.fmt) p (nibble (packDigits s.mag.toNat).1 p)) 7) := by
  obtain ⟨h1, h2, h3⟩ :=
    firstSignificant_spec (fun p => lead0 s.cfg (dpOf s.fmt) p (nibble (packDigits s.mag.toNat).1 p)) 7
  refine ⟨h1, ?_, fun p hp hp7 => (lead0_iff s p (by omega)).1 (h3 p hp hp7)⟩
  rcases h2 with h2 | h2
  · exact .inl h2
  · refine .inr fun hb => ?_
    have := (lead0_iff s _ (by omega)).2 hb
    simp [this] at h2

/-- What `ENC` does (R148), in the words of R152 and R156: with `f` the first significant digit, either the state overflows, or the row of
glyphs is written. -/
theorem encodeGlyphs_eq {s : State} {f : Nat} (hf : s.firstDigit f) :
    (s.overflows ∧ s.encodeGlyphs =
      { s with bcd := 0, ovf := true, seq := freeRow s.draws, draws := s.draws + 8 }) ∨
    (¬ s.overflows ∧ s.encodeGlyphs =
      { s with bcd := 0, seq := glyphRow s.cfg (dpOf s.fmt) (sgnOf s.fmt) (packDigits s.mag.toNat).1 f }) := by
  have hs := firstDigit_unique (scan_firstDigit s) hf
  have key : s.overflows ↔ (packDigits s.mag.toNat).2 ≠ 0 ∨ (sgnOf s.fmt ∧ f = 7) := by
    rw [packDigits_rest]
    unfold State.overflows
    constructor
    · rintro (h | ⟨h, h7⟩)
      · exact .inl h
      · exact .inr ⟨h, firstDigit_unique hf h7⟩
    · rintro (h | ⟨h, rfl⟩)
      · exact .inl h
      · exact .inr ⟨h, hf⟩
  simp only [State.encodeGlyphs, hs, shiftedOut_eq_zero]
  by_cases ho : s.overflows
  · exact .inl ⟨ho, by rw [if_pos (key.1 ho)]; rfl⟩
  · exact .inr ⟨ho, by rw [if_neg (fun h => ho (key.2 h))]⟩

end Sys2Proof.Machine
end

