-- ==== Sys2Proof/Laws/Sequencer.lean ====
section
/-! SUPPORT. What the sequencer can do: one lemma for each shared operation (`accept`, `landDue`, `execPrim`, `primStep`, `runPrims`),
the run of a quiet block, and the induction over a run. -/

namespace Sys2Proof.Machine

/-! ## Inputs -/

@[simp] theorem countDown_nil : countDown [] = [] := rfl

/-- Counting down changes no input, only the time of the first. -/
theorem countDown_map_input (l : List Arrival) : (countDown l).map Arrival.input = l.map Arrival.input := by
  unfold countDown; split <;> rfl

theorem countDown_length (l : List Arrival) : (countDown l).length = l.length := by
  simpa using congrArg List.length (countDown_map_input l)

/-- A property of the inputs themselves outlives a countdown. -/
theorem forall_countDown {P : Input → Prop} {l : List Arrival} (h : ∀ e ∈ l, P e.input) : ∀ e ∈ countDown l, P e.input := by
  have key : ∀ x ∈ (countDown l).map Arrival.input, P x := by
    rw [countDown_map_input]; simpa using h
  simpa using key

/-- What an input can do to a busy block (R62, R30, R192). -/
theorem accept_busy {s : State} (h : s.busy = true) (i : Input) :
    (∃ a v, i = .write a v ∧ s.accept i = { s with cerr := true }) ∨
    (∃ a, i = .read a ∧ s.accept i = s.hostRead a) ∨
    (i = .reset ∧ s.accept i = s.resetBlock) ∨
    (∃ b, i = .hold b ∧ s.accept i = { s with held := b }) ∨
    (∃ n, i = .delay n ∧ s.accept i = s) := by
  cases i with
  | write a v => exact .inl ⟨a, v, rfl, by simp [State.accept, State.hostWrite, h, State.raise]⟩
  | read a => exact .inr (.inl ⟨a, rfl, rfl⟩)
  | reset => exact .inr (.inr (.inl ⟨rfl, rfl⟩))
  | hold b => exact .inr (.inr (.inr (.inl ⟨b, rfl, rfl⟩)))
  | delay n => exact .inr (.inr (.inr (.inr ⟨n, rfl, rfl⟩)))

/-- A read of an idle block (R63). -/
theorem hostRead_of_idle {s : State} (h : s.busy = false) (a : Nat) :
    s.hostRead a = { s with got := s.got ++ [⟨a, s.regValue a⟩] } := by
  simp only [State.hostRead]
  rw [if_neg (by simp [h])]

/-- A read of a busy block (R30). -/
theorem hostRead_of_busy {s : State} (h : s.busy = true) (a : Nat) :
    s.hostRead a = { s with got := s.got ++ [⟨a, s.regValueBusy a (Config.freeRead s.got.length)⟩] } := by
  simp only [State.hostRead]
  rw [if_pos h]

/-- No input takes another one away. -/
theorem accept_inputs (i : Input) (s : State) : (s.accept i).inputs = s.inputs := by
  cases i with
  | write a v =>
    simp only [State.accept, State.hostWrite, State.writeData]
    repeat' split
    all_goals simp
  | _ => rfl

@[simp] theorem landDue_nil (s : State) : landDue [] s = s := rfl

/-- Nothing lands between the primitives of a block that is not busy. -/
theorem landDue_idle {s : State} (h : s.busy = false) (l : List Arrival) : landDue l s = s := by
  cases l <;> simp [landDue, h]

/-- The induction over the inputs that land between two primitives. -/
theorem landDue_induction {P : State → Prop}
    (land : ∀ s e rest, P s → s.busy = true → s.inputs = e :: rest → e.after = some 0 →
      P (({ s with inputs := rest } : State).accept e.input)) :
    ∀ (l : List Arrival) (s : State), s.inputs = l → P s → P (landDue l s) := by
  intro l
  induction l with
  | nil => intro s _ h; exact h
  | cons e rest ih =>
    intro s hl h
    simp only [landDue]
    split
    · next hd => exact ih _ (by rw [accept_inputs]) (land s e rest h hd.1 hl hd.2)
    · exact h

/-! ## Primitives -/

/-- What a primitive leaves alone, whichever it is: the configuration, the accepted word, the host's side, and the flags that are not
its own. -/
theorem execPrim_frame (p : Prim) (s : State) :
    (execPrim p s).cfg = s.cfg ∧ (execPrim p s).opc = s.opc ∧ (execPrim p s).imm = s.imm ∧ (execPrim p s).stp = s.stp ∧
    (execPrim p s).hung = s.hung ∧ (execPrim p s).held = s.held ∧ (execPrim p s).inputs = s.inputs ∧
    (execPrim p s).got = s.got ∧ (execPrim p s).ill = s.ill ∧ (execPrim p s).cerr = s.cerr ∧ (execPrim p s).raw = s.raw := by
  cases p <;> simp [execPrim, State.convert1, State.convert2]
  simp only [State.encodeGlyphs]
  split <;> simp

@[simp] theorem execPrim_cfg (p : Prim) (s : State) : (execPrim p s).cfg = s.cfg := (execPrim_frame p s).1
@[simp] theorem execPrim_opc (p : Prim) (s : State) : (execPrim p s).opc = s.opc := (execPrim_frame p s).2.1
@[simp] theorem execPrim_imm (p : Prim) (s : State) : (execPrim p s).imm = s.imm := (execPrim_frame p s).2.2.1
@[simp] theorem execPrim_stp (p : Prim) (s : State) : (execPrim p s).stp = s.stp := (execPrim_frame p s).2.2.2.1
@[simp] theorem execPrim_hung (p : Prim) (s : State) : (execPrim p s).hung = s.hung := (execPrim_frame p s).2.2.2.2.1
@[simp] theorem execPrim_held (p : Prim) (s : State) : (execPrim p s).held = s.held := (execPrim_frame p s).2.2.2.2.2.1
@[simp] theorem execPrim_inputs (p : Prim) (s : State) : (execPrim p s).inputs = s.inputs :=
  (execPrim_frame p s).2.2.2.2.2.2.1
@[simp] theorem execPrim_got (p : Prim) (s : State) : (execPrim p s).got = s.got := (execPrim_frame p s).2.2.2.2.2.2.2.1
@[simp] theorem execPrim_ill (p : Prim) (s : State) : (execPrim p s).ill = s.ill := (execPrim_frame p s).2.2.2.2.2.2.2.2.1
@[simp] theorem execPrim_cerr (p : Prim) (s : State) : (execPrim p s).cerr = s.cerr :=
  (execPrim_frame p s).2.2.2.2.2.2.2.2.2.1
@[simp] theorem execPrim_raw (p : Prim) (s : State) : (execPrim p s).raw = s.raw := (execPrim_frame p s).2.2.2.2.2.2.2.2.2.2

/-- `BUSY` falls with `finish` and with no other primitive (R26). -/
theorem execPrim_busy (p : Prim) (s : State) : (execPrim p s).busy = (s.busy && decide (p ≠ .finish)) := by
  cases p <;> simp [execPrim, State.convert1, State.convert2]
  simp only [State.encodeGlyphs]
  split <;> simp

/-- Which primitives drive and release the line (R39). -/
theorem execPrim_drv (p : Prim) (s : State) : (execPrim p s).drv = drvAfter [p] s.drv := by
  cases p <;> simp [execPrim, drvAfter, State.convert1, State.convert2]
  simp only [State.encodeGlyphs]
  split <;> simp

/-- Which primitives count (R40). -/
theorem execPrim_bitcnt (p : Prim) (s : State) : (execPrim p s).bitcnt = cntAfter [p] s.bitcnt := by
  cases p <;> simp [execPrim, cntAfter, State.convert1, State.convert2]
  simp only [State.encodeGlyphs]
  split <;> simp

/-- `FMT` is written by the conversions only. -/
theorem execPrim_fmt (p : Prim) (s : State) :
    (execPrim p s).fmt = s.fmt ∨ ∃ b, (execPrim p s).fmt = fmtValue b 1 := by
  cases p with
  | convert1 => exact .inr ⟨_, rfl⟩
  | convert2 => exact .inr ⟨_, rfl⟩
  | encode =>
    simp only [execPrim, State.encodeGlyphs]
    split <;> simp
  | _ => exact .inl rfl

theorem drvAfter_append (ps qs : List Prim) (d : Bool) : drvAfter (ps ++ qs) d = drvAfter qs (drvAfter ps d) := by
  induction ps generalizing d with
  | nil => rfl
  | cons p ps ih => cases p <;> simp [drvAfter, ih]

theorem cntAfter_append (ps qs : List Prim) (n : BitVec 4) : cntAfter (ps ++ qs) n = cntAfter qs (cntAfter ps n) := by
  induction ps generalizing n with
  | nil => rfl
  | cons p ps ih => cases p <;> simp [cntAfter, ih]

/-- Every operation ends with the line released and the bit counter at 0 (R39, R40). -/
theorem progOf_ends_at_rest (c : Cfg) (i : Instr) : drvAfter (progOf c i) false = false ∧ cntAfter (progOf c i) 0 = 0 := by
  cases i <;> exact ⟨rfl, rfl⟩

/-- `finish` is the last primitive of every operation, and only the last. -/
theorem progOf_finish (c : Cfg) (i : Instr) : ∃ ps, progOf c i = ps ++ [.finish] ∧ .finish ∉ ps := by
  cases i with
  | owrst => exact ⟨(owrstProg c).dropLast, rfl, by simp [owrstProg]⟩
  | owwbit v => exact ⟨owwbitProg.dropLast, rfl, by decide⟩
  | owrbit => exact ⟨(owrbitProg c).dropLast, rfl, by simp [owrbitProg, readBitProg]⟩
  | owwbyte b => exact ⟨owwbyteProg.dropLast, rfl, by decide⟩
  | owrbyte =>
    exact ⟨[.clearSr] ++ (readBitProg c .driveFirst ++ [.shiftIn]) ++ rounds 7 (readBitProg c .driveLow ++ [.shiftIn]) ++ [.latchRdata],
      by simp [progOf, owrbyteProg], by simp [rounds, readBitProg]⟩
  | brev x => exact ⟨[.reverse], rfl, by decide⟩
  | cvt1 => exact ⟨[.convert1], rfl, by decide⟩
  | cvt2 => exact ⟨[.convert2], rfl, by decide⟩
  | enc => exact ⟨[.encode], rfl, by decide⟩
  | dput => exact ⟨dputProg.dropLast, rfl, by decide⟩

/-! ## One primitive -/

/-- One primitive, and the sequencer moves on. -/
def advance (s : State) (p : Prim) : State := { execPrim p s with stp := s.stp + 1 }

/-- Only a first `DriveLow()` sticks, under `WEDGE_HANGS` and on a line the environment holds low (R133). -/
theorem sticks_iff {p : Prim} {s : State} :
    s.sticks p = true ↔ p = .driveFirst ∧ s.cfg.wedgeHangs = true ∧ s.envLevel = false := by
  simp [State.sticks, and_assoc]

theorem not_sticks_of_ne {p : Prim} (h : p ≠ .driveFirst) (s : State) : s.sticks p = false := by
  simp [State.sticks, h]

theorem not_sticks_of_usable {s : State} (h : s.lineUsable = true) (p : Prim) : s.sticks p = false := by
  simp only [State.lineUsable, Bool.or_eq_true, Bool.not_eq_true'] at h
  rcases h with h | h <;> simp [State.sticks, h]

/-- All a primitive can do: the sequencer is stuck at it, or it has its effect and the sequencer moves on. -/
theorem primStep_cases (p : Prim) (s : State) :
    (s.sticks p = true ∧ primStep p s = { s.questioned with hung := true }) ∨
    (s.sticks p = false ∧ primStep p s = { advance s p with inputs := countDown s.inputs }) := by
  unfold primStep
  rcases Bool.eq_false_or_eq_true (s.sticks p) with h | h
  · exact .inl ⟨h, by rw [if_pos h]⟩
  · exact .inr ⟨h, by rw [if_neg (by simp [h])]; simp [advance]⟩

/-! ## A run -/

/-- Whatever is left to run, an idle block runs nothing. -/
theorem runPrims_idle {s : State} (h : s.busy = false) (ps : List Prim) : runPrims ps s = s := by
  cases ps <;> simp [runPrims, landDue_idle h, h]

/-- A stuck sequencer runs nothing (R133). -/
theorem runPrims_hung {s : State} (h : s.hung = true) (ps : List Prim) : runPrims ps s = s := by
  cases ps <;> simp [runPrims, h]

/-- The next primitive of a sequencer that is not stuck. -/
theorem runPrims_cons {s : State} (h : s.hung = false) (p : Prim) (ps : List Prim) :
    runPrims (p :: ps) s =
      if (landDue s.inputs s).busy then runPrims ps (primStep p (landDue s.inputs s)) else landDue s.inputs s := by
  simp [runPrims, h]

/-- A run goes on where the run of its first part ended. -/
theorem runPrims_append (ps qs : List Prim) (s : State) : runPrims (ps ++ qs) s = runPrims qs (runPrims ps s) := by
  induction ps generalizing s with
  | nil => rfl
  | cons p ps ih =>
    rcases Bool.eq_false_or_eq_true s.hung with hh | hh
    · simp only [runPrims_hung hh]
    · rw [List.cons_append, runPrims_cons hh, runPrims_cons hh]
      split
      · exact ih _
      · next h => rw [runPrims_idle (by simpa using h)]

/-- No landing input makes the sequencer stuck. -/
theorem accept_not_hung {s : State} (h : s.hung = false) (x : Input) : (s.accept x).hung = false := by
  cases x with
  | write a v =>
    simp only [State.accept, State.hostWrite, State.writeData]
    repeat' split
    all_goals simp [h]
  | reset => rfl
  | _ => exact h

theorem landDue_not_hung (l : List Arrival) : ∀ {s : State}, s.hung = false → (landDue l s).hung = false := by
  induction l with
  | nil => intro s h; exact h
  | cons e rest ih =>
    intro s h
    simp only [landDue]
    split
    · exact ih (accept_not_hung (by exact h) _)
    · exact h

/-- The induction over a run: what holds at its start and survives every landing input and every primitive holds at its end. -/
theorem runPrims_induction {P : State → Prop} (ps : List Prim)
    (land : ∀ s e rest, P s → s.busy = true → s.inputs = e :: rest → e.after = some 0 →
      P (({ s with inputs := rest } : State).accept e.input))
    (prim : ∀ s, ∀ p ∈ ps, P s → s.busy = true → s.hung = false → P (primStep p s)) :
    ∀ s, P s → P (runPrims ps s) := by
  induction ps with
  | nil => intro s h; exact h
  | cons p ps ih =>
    intro s h
    rcases Bool.eq_false_or_eq_true s.hung with hh | hh
    · rw [runPrims_hung hh]; exact h
    · have hl := landDue_induction land s.inputs s rfl h
      rw [runPrims_cons hh]
      split
      · next hb =>
        exact ih (fun s q hq => prim s q (List.mem_cons_of_mem _ hq)) _
          (prim _ p (by simp) hl hb (landDue_not_hung _ hh))
      · exact hl

/-- What `exec` gives: the run of the operation's primitives from the accepted state. -/
theorem exec_eq (i : Instr) (s : State) : exec i s = .next (runPrims (progOf s.cfg i) (s.started i)) := by
  cases i <;> rfl

/-! ## A quiet run -/

theorem landDue_quiet {s : State} (h : s.quiet = true) : landDue s.inputs s = s := by
  unfold State.quiet at h
  split at h
  · next hl => simp [hl]
  · next e rest hl =>
    have : e.after = none := by simpa using h
    simp [hl, landDue, this]

theorem countDown_quiet {s : State} (h : s.quiet = true) : countDown s.inputs = s.inputs := by
  unfold State.quiet at h
  split at h
  · next hl => simp [hl]
  · next e rest hl =>
    obtain ⟨a, i⟩ := e
    have : a = none := by simpa using h
    subst this
    rw [hl]; rfl

/-- Being quiet is a matter of the inputs alone. -/
theorem quiet_congr {s t : State} (h : t.inputs = s.inputs) : t.quiet = s.quiet := by simp [State.quiet, h]

/-- An operation is running, it is not stuck, and nothing lands in it. -/
structure State.Running (s : State) : Prop where
  quiet : s.quiet = true
  busy  : s.busy = true
  free  : s.hung = false

/-- Being `Running` is a matter of three fields. -/
theorem State.Running.congr {s t : State} (h : s.Running) (hi : t.inputs = s.inputs) (hb : t.busy = s.busy) (hh : t.hung = s.hung) :
    t.Running := ⟨by rw [quiet_congr hi, h.quiet], by rw [hb, h.busy], by rw [hh, h.free]⟩

theorem started_running {s : State} (h : s.quiet = true) (i : Instr) : (s.started i).Running := ⟨h, rfl, rfl⟩

/-- One primitive of a quiet block. -/
theorem primStep_quiet {s : State} (h : s.quiet = true) {p : Prim} (hs : s.sticks p = false) : primStep p s = advance s p := by
  rcases primStep_cases p s with ⟨h1, _⟩ | ⟨_, h2⟩
  · rw [hs] at h1; cases h1
  · rw [h2, countDown_quiet h]
    have : (advance s p).inputs = s.inputs := by simp [advance]
    rw [← this]

theorem advance_running {s : State} (h : s.Running) {p : Prim} (hp : p ≠ .finish) : (advance s p).Running :=
  h.congr (by simp [advance]) (by simp [advance, execPrim_busy, hp]) (by simp [advance])

/-- A running block runs its next primitive. -/
theorem runPrims_quiet_cons {s : State} (h : s.Running) {p : Prim} (hs : s.sticks p = false) (ps : List Prim) :
    runPrims (p :: ps) s = runPrims ps (advance s p) := by
  rw [runPrims_cons h.free, landDue_quiet h.quiet, if_pos h.busy, primStep_quiet h.quiet hs]

/-- Where the line is usable, the first `DriveLow()` of a bus operation is like any other, once the environment has been asked (R133). -/
theorem runPrims_driveFirst {s : State} (h : s.Running) (hu : s.lineUsable = true) (ps : List Prim) :
    runPrims (.driveFirst :: ps) s = runPrims (.driveLow :: ps) s.questioned := by
  rw [runPrims_quiet_cons h (not_sticks_of_usable hu _),
    runPrims_quiet_cons (h.congr (by rfl) (by rfl) (by rfl)) (not_sticks_of_ne (by decide) _)]
  rfl

/-- Where it is not, the sequencer is stuck there (R133). -/
theorem runPrims_stuck {s : State} (h : s.Running) (hu : s.lineUsable = false) (ps : List Prim) :
    runPrims (.driveFirst :: ps) s = { s.questioned with hung := true } := by
  simp only [State.lineUsable, Bool.or_eq_false_iff, Bool.not_eq_false'] at hu
  rw [runPrims_cons h.free, landDue_quiet h.quiet, if_pos h.busy]
  have hs : primStep .driveFirst s = { s.questioned with hung := true } := by
    unfold primStep; rw [if_pos (sticks_iff.2 ⟨rfl, hu.1, hu.2⟩)]
  rw [hs, runPrims_hung rfl]

/-- A primitive that ends nothing and asks nothing: any but `finish` and a first `DriveLow()`. -/
def Prim.plain (p : Prim) : Bool := p != .finish && p != .driveFirst

theorem plain_iff {p : Prim} : p.plain = true ↔ p ≠ .finish ∧ p ≠ .driveFirst := by simp [Prim.plain]

/-- A running block runs plain primitives one after another. -/
theorem runPrims_straight {ps : List Prim} (hp : ps.all Prim.plain = true) : ∀ {s : State}, s.Running →
    runPrims ps s = ps.foldl advance s := by
  induction ps with
  | nil => intro s _; rfl
  | cons p ps ih =>
    intro s h
    simp only [List.all_cons, Bool.and_eq_true, plain_iff] at hp
    rw [runPrims_quiet_cons h (not_sticks_of_ne hp.1.2 s), List.foldl_cons]
    exact ih hp.2 (advance_running h hp.1.1)

/-- `finish` ends the run (R26). -/
theorem runPrims_finish {s : State} (h : s.Running) : runPrims [.finish] s = { s with busy := false, stp := s.stp + 1 } := by
  rw [runPrims_quiet_cons h (not_sticks_of_ne (by decide) s)]; rfl

theorem straight_running {ps : List Prim} (hp : ps.all Prim.plain = true) : ∀ {s : State}, s.Running →
    (ps.foldl advance s).Running := by
  induction ps with
  | nil => intro s h; exact h
  | cons p ps ih =>
    intro s h
    simp only [List.all_cons, Bool.and_eq_true, plain_iff] at hp
    exact ih hp.2 (advance_running h hp.1.1)

/-- A running block runs plain primitives and ends. -/
theorem runPrims_straight_finish {ps : List Prim} (hp : ps.all Prim.plain = true) {s : State} (h : s.Running) :
    runPrims (ps ++ [.finish]) s = { ps.foldl advance s with busy := false, stp := (ps.foldl advance s).stp + 1 } := by
  rw [runPrims_append, runPrims_straight hp h, runPrims_finish (straight_running hp h)]

end Sys2Proof.Machine
end

