-- ==== Sys2Proof/Laws/Bus.lean ====
section
/-! SUPPORT. The slots of the line: what a write slot and a read slot do to a quiet block, and the loops of eight of them. -/

namespace Sys2Proof.Machine

/-- The state after a write slot carrying `b` (R103). -/
def State.afterWriteSlot (s : State) (b : Bool) : State :=
  { s with drv := false, lt := s.lt ++ writeSlot s.cfg b, stp := s.stp + 4 }

/-- The state after a read slot that sampled `b` (R104). -/
def State.afterReadSlot (s : State) (b : Bool) : State :=
  { s with drv := false, smp := b, levels := s.levels.tail, lt := s.lt ++ readSlot s.cfg b, stp := s.stp + 6 }

theorem writeBit_straight (s : State) (v : BitSource) :
    (writeBitProg .driveLow v).foldl advance s = s.afterWriteSlot (s.slotBit v) := by
  cases s
  cases v <;>
    simp [writeBitProg, advance, execPrim, State.driveLow, State.waitFor, State.release, State.emit, writeSlot, slotLow, slotPad,
      State.slotBit, State.afterWriteSlot]

theorem readBit_straight (s : State) :
    (readBitProg s.cfg .driveLow).foldl advance s = s.afterReadSlot (s.sampleAt 0 (s.lt ++ readOpening s.cfg)) := by
  obtain ⟨⟩ := s
  rename_i levels _ _
  cases levels <;>
    simp [readBitProg, advance, execPrim, State.driveLow, State.waitFor, State.release, State.emit, State.sense, State.lineLevel,
      State.envLevel, State.answer, readSlot, readOpening, State.sampleAt, State.afterReadSlot]

/-- A write slot of a running block (R103). -/
theorem runPrims_writeBit {s : State} (h : s.Running) (v : BitSource) (ps : List Prim) :
    runPrims (writeBitProg .driveLow v ++ ps) s = runPrims ps (s.afterWriteSlot (s.slotBit v)) := by
  rw [runPrims_append, runPrims_straight (by rfl) h, writeBit_straight]

/-- A read slot of a running block (R104): one sample, kept in the temporary. -/
theorem runPrims_readBit {s : State} (h : s.Running) (ps : List Prim) :
    runPrims (readBitProg s.cfg .driveLow ++ ps) s =
      runPrims ps (s.afterReadSlot (s.sampleAt 0 (s.lt ++ readOpening s.cfg))) := by
  rw [runPrims_append, runPrims_straight (by rfl) h, readBit_straight]

theorem rounds_succ (n : Nat) (body : List Prim) : rounds (n + 1) body = body ++ rounds n body := by
  simp [rounds, List.replicate_succ]

/-- The state after `n` rounds of the loop of `WriteByte` (R124): the slots carried the low bits of `SR`, the lowest first. -/
def State.afterWriteRounds (s : State) (n : Nat) : State :=
  { s with
    drv := s.drv && decide (n = 0), sr := s.sr >>> n, bitcnt := s.bitcnt - BitVec.ofNat 4 n, stp := s.stp + 5 * n,
    lt := s.lt ++ ((List.range n).map fun k => s.sr.getLsbD k).flatMap (writeSlot s.cfg) }

/-- Counting down by one and then by `n` is counting down by `n + 1`. -/
theorem bitcnt_sub (x : BitVec 4) (n : Nat) : x - 1 - BitVec.ofNat 4 n = x - BitVec.ofNat 4 (n + 1) := by
  have h1 : (1 : BitVec 4).toNat = 1 := rfl
  apply BitVec.eq_of_toNat_eq
  simp only [BitVec.toNat_sub, BitVec.toNat_ofNat, h1]
  omega

theorem runPrims_writeRounds (n : Nat) : ∀ {s : State}, s.Running →
    runPrims (rounds n (writeBitProg .driveLow .sr ++ [.shiftOut])) s = s.afterWriteRounds n := by
  induction n with
  | zero => intro s _; cases s; simp [rounds, runPrims, State.afterWriteRounds]
  | succ n ih =>
    intro s h
    have h1 : (s.afterWriteSlot (s.slotBit .sr)).Running := h.congr (by rfl) (by rfl) (by rfl)
    rw [rounds_succ, List.append_assoc, runPrims_writeBit h, List.cons_append, List.nil_append,
      runPrims_quiet_cons h1 (not_sticks_of_ne (by decide) _), ih (advance_running h1 (by decide))]
    clear h h1 ih
    cases s
    simp only [State.afterWriteRounds, State.afterWriteSlot, advance, execPrim, State.slotBit, List.range_succ_eq_map, List.map_cons,
      List.map_map, List.flatMap_cons, State.mk.injEq, bitcnt_sub, List.append_assoc, BitVec.getLsbD_ushiftRight, Function.comp_def,
      ← BitVec.shiftRight_add, Nat.succ_eq_add_one, Nat.add_comm 1]
    simp
    omega

/-- The samples after the first are those of the state after the first slot. -/
theorem slotSamples_succ (s : State) (n : Nat) :
    s.slotSamples (n + 1) = s.sampleAt 0 (s.lt ++ readOpening s.cfg) ::
      (s.afterReadSlot (s.sampleAt 0 (s.lt ++ readOpening s.cfg))).slotSamples n := by
  induction n with
  | zero => simp [State.slotSamples]
  | succ n ih =>
    rw [State.slotSamples, ih, State.slotSamples]
    simp [State.sampleAt, State.afterReadSlot]

/-- Only the environment, the configuration and the line trace decide the samples. -/
theorem slotSamples_congr {s t : State} (hc : t.cfg = s.cfg) (hl : t.levels = s.levels) (hh : t.held = s.held)
    (ht : t.lt = s.lt) (n : Nat) : t.slotSamples n = s.slotSamples n := by
  induction n with
  | zero => rfl
  | succ n ih => simp [State.slotSamples, ih, State.sampleAt, hc, hl, hh, ht]

theorem slotSamples_length (s : State) (n : Nat) : (s.slotSamples n).length = n := by
  induction n with
  | zero => rfl
  | succ n ih => simp [State.slotSamples, ih]

/-- The accumulation of `ReadByte` (R126): shift left, then OR the new bit into bit 0. -/
def shiftIns (q : Byte) : List Bool → Byte
  | []      => q
  | b :: bs => shiftIns ((q <<< 1) ||| (BitVec.ofBool b).setWidth 8) bs

/-- The state after `n` rounds of the loop of `ReadByte` (R126), with `b` left in the temporary. -/
def State.afterReadRounds (s : State) (n : Nat) (b : Bool) : State :=
  { s with
    drv := s.drv && decide (n = 0), smp := b, sr := shiftIns s.sr (s.slotSamples n),
    bitcnt := s.bitcnt - BitVec.ofNat 4 n, stp := s.stp + 7 * n, levels := s.levels.drop n,
    lt := s.lt ++ (s.slotSamples n).flatMap (readSlot s.cfg) }

theorem runPrims_readRounds (n : Nat) : ∀ {s : State}, s.Running →
    ∃ b, runPrims (rounds n (readBitProg s.cfg .driveLow ++ [.shiftIn])) s = s.afterReadRounds n b := by
  induction n with
  | zero => intro s _; exact ⟨s.smp, by cases s; simp [rounds, runPrims, State.afterReadRounds, State.slotSamples, shiftIns]⟩
  | succ n ih =>
    intro s h
    have h1 : (s.afterReadSlot (s.sampleAt 0 (s.lt ++ readOpening s.cfg))).Running := h.congr (by rfl) (by rfl) (by rfl)
    obtain ⟨b, hr⟩ := ih (advance_running h1 (p := .shiftIn) (by decide))
    refine ⟨b, ?_⟩
    rw [rounds_succ, List.append_assoc, runPrims_readBit h, List.cons_append, List.nil_append,
      runPrims_quiet_cons h1 (not_sticks_of_ne (by decide) _)]
    refine Eq.trans hr ?_
    have h2 : (advance (s.afterReadSlot (s.sampleAt 0 (s.lt ++ readOpening s.cfg))) .shiftIn).slotSamples n =
        (s.afterReadSlot (s.sampleAt 0 (s.lt ++ readOpening s.cfg))).slotSamples n :=
      slotSamples_congr (by rfl) (by rfl) (by rfl) (by rfl) n
    simp only [State.afterReadRounds, slotSamples_succ, h2, shiftIns, List.flatMap_cons]
    generalize s.sampleAt 0 (s.lt ++ readOpening s.cfg) = c at *
    generalize State.slotSamples _ n = l at *
    clear h2 hr h h1 ih
    cases s
    simp only [State.afterReadSlot, advance, execPrim, State.mk.injEq, bitcnt_sub, List.append_assoc, List.drop_tail]
    simp
    omega

/-- After eight rounds the first bit read stands in `SR[7]` and the last in `SR[0]`: the k-th is `SR[7-k]` (R126). -/
theorem shiftIns_eight : ∀ b0 b1 b2 b3 b4 b5 b6 b7 : Bool, ∀ k, k < 8 →
    (shiftIns 0 [b0, b1, b2, b3, b4, b5, b6, b7]).getLsbD (7 - k) = ([b0, b1, b2, b3, b4, b5, b6, b7][k]?).getD false := by
  decide

/-- `rev8(x)[i] = x[7-i]` (R127). -/
theorem rev8_mirror : ∀ x : Byte, ∀ k, k < 8 → (rev8 x).getLsbD k = x.getLsbD (7 - k) := by
  decide

/-! ## Durations -/

@[simp] theorem duration_append (a b : List LineEvent) : duration (a ++ b) = duration a + duration b := by simp [duration]

/-- A write slot lasts `T_WSLOT`, whatever its bit (R107). -/
theorem duration_writeSlot {c : Cfg} (h : c.wf = true) (b : Bool) : duration (writeSlot c b) = c.tWslot := by
  simp only [Cfg.wf, decide_eq_true_eq] at h
  cases b <;> simp [writeSlot, duration, eventTime] <;> omega

/-- A read slot lasts `T_RINIT + T_RSAMP + T_RPAD` (R104). -/
theorem duration_readSlot (c : Cfg) (b : Bool) : duration (readSlot c b) = c.tRinit + c.tRsamp + c.tRpad := by
  simp [readSlot, readOpening, duration, eventTime]
  omega

theorem duration_writeSlots {c : Cfg} (h : c.wf = true) (l : List Bool) :
    duration (l.flatMap (writeSlot c)) = l.length * c.tWslot := by
  induction l with
  | nil => simp [duration]
  | cons b l ih => rw [List.flatMap_cons, duration_append, ih, duration_writeSlot h, List.length_cons]; ring

theorem duration_readSlots (c : Cfg) (l : List Bool) :
    duration (l.flatMap (readSlot c)) = l.length * (c.tRinit + c.tRsamp + c.tRpad) := by
  induction l with
  | nil => simp [duration]
  | cons b l ih => rw [List.flatMap_cons, duration_append, ih, duration_readSlot, List.length_cons]; ring

/-! ## Low pulses -/

/-- A write slot is one low pulse, as long as its bit says (R103). -/
theorem lowPulses_writeSlots (c : Cfg) (l : List Bool) :
    lowPulses (l.flatMap (writeSlot c)) = l.map fun b => if b then c.tW1L else c.tW0L := by
  induction l with
  | nil => rfl
  | cons b l ih =>
    rw [List.flatMap_cons, List.map_cons, ← ih]
    simp [lowPulses, writeSlot, lowPulsesFrom]

/-- A read slot is one low pulse of `T_RINIT` (R104). -/
theorem lowPulses_readSlots (c : Cfg) (l : List Bool) : lowPulses (l.flatMap (readSlot c)) = l.map fun _ => c.tRinit := by
  induction l with
  | nil => rfl
  | cons b l ih =>
    rw [List.flatMap_cons, List.map_cons, ← ih]
    simp [lowPulses, readSlot, readOpening, lowPulsesFrom]

end Sys2Proof.Machine
end

