-- ==== Sys2Proof/Laws/Decode.lean ====
section
/-! SUPPORT. The fields of an encoded command, and what the decoder answers on each operation code. -/

namespace Sys2Proof

/-- A command word as a number. -/
theorem encode_toNat (i : Instr) : (encode i).toNat = (opcOf i).toNat * 256 + (immOf i).toNat := by
  have h1 := (opcOf i).isLt
  have h2 := (immOf i).isLt
  have h3 := Nat.shiftLeft_add_eq_or_of_lt h2 (opcOf i).toNat
  simp only [encode, BitVec.toNat_append, BitVec.toNat_ofNat, Nat.zero_mod, Nat.zero_shiftLeft, Nat.zero_or]
  omega

@[simp] theorem mbzField_encode (i : Instr) : mbzField (encode i) = 0 := by
  have h1 := (opcOf i).isLt
  have h2 := (immOf i).isLt
  apply BitVec.eq_of_toNat_eq
  have h3 : (0 : BitVec 4).toNat = 0 := rfl
  simp only [mbzField, BitVec.extractLsb'_toNat, encode_toNat, Nat.shiftRight_eq_div_pow, h3]
  omega

@[simp] theorem opcField_encode (i : Instr) : opcField (encode i) = opcOf i := by
  have h1 := (opcOf i).isLt
  have h2 := (immOf i).isLt
  apply BitVec.eq_of_toNat_eq
  simp only [opcField, BitVec.extractLsb'_toNat, encode_toNat, Nat.shiftRight_eq_div_pow]
  omega

@[simp] theorem immField_encode (i : Instr) : immField (encode i) = immOf i := by
  have h2 := (immOf i).isLt
  apply BitVec.eq_of_toNat_eq
  simp only [immField, BitVec.extractLsb'_toNat, encode_toNat, Nat.shiftRight_eq_div_pow]
  omega

/-- A word is its three fields (R80). -/
theorem word_of_fields (w : Half) : mbzField w ++ opcField w ++ immField w = w := by
  ext k hk
  simp only [mbzField, opcField, immField, BitVec.getElem_append, BitVec.getElem_extractLsb']
  split
  · simp [BitVec.getLsbD_eq_getElem hk]
  · split
    · rw [← BitVec.getLsbD_eq_getElem]; congr 1; omega
    · rw [← BitVec.getLsbD_eq_getElem]; congr 1; omega

/-- `decode` on a word whose `mbz` is zero. -/
theorem decode_of_mbz (w : Half) (h : mbzField w = 0) : decode w = decodeFields (opcField w) (immField w) := by
  simp [decode, h]

/-- A legal word has `mbz = 0`. -/
theorem mbz_of_decode {w : Half} {i : Instr} (h : decode w = .ok i) : mbzField w = 0 := by
  unfold decode at h
  split at h
  · cases h
  · next h' => simpa using h'

theorem noImmediate_ok {opc : BitVec 4} {imm : Byte} {i j : Instr} (h : noImmediate opc imm i = .ok j) :
    imm = 0 ∧ j = i := by
  unfold noImmediate at h
  split at h
  · next h' => exact ⟨h', by cases h; rfl⟩
  · cases h

/-- The fields of a legal word are those of the command it decodes to, and the command is well formed. -/
theorem decodeFields_ok {opc : BitVec 4} {imm : Byte} {i : Instr} (h : decodeFields opc imm = .ok i) :
    i.wf = true ∧ opcOf i = opc ∧ immOf i = imm := by
  have key : ∀ k : BitVec 4, opc = k → i.wf = true ∧ opcOf i = opc ∧ immOf i = imm := by
    intro k hk
    subst hk
    unfold decodeFields at h
    split at h
    all_goals first
      | (obtain ⟨h0, rfl⟩ := noImmediate_ok h
         exact ⟨rfl, BitVec.eq_of_toNat_eq (by simp [opcOf, *]), by simp [immOf, h0]⟩)
      | (split at h <;> cases h
         exact ⟨by simpa [Instr.wf] using ‹_›, BitVec.eq_of_toNat_eq (by simp [opcOf, *]), rfl⟩)
      | (cases h
         exact ⟨rfl, BitVec.eq_of_toNat_eq (by simp [opcOf, *]), rfl⟩)
      | cases h
  exact key opc rfl

/-- Decoding the fields of a well-formed command. -/
theorem decodeFields_of (i : Instr) (h : i.wf = true) : decodeFields (opcOf i) (immOf i) = .ok i := by
  cases i <;> simp_all [decodeFields, opcOf, immOf, noImmediate, Instr.wf]

end Sys2Proof
end

