-- ==== Sys2Proof/Laws/PerInstr.lean ====
section
/-! SUPPORT. For every command: the word of a well-formed command selects the row of its mnemonic (R83). One lemma per constructor. -/

namespace Sys2Proof.Laws.TableRow

/-- The word of a well-formed `i` selects the row that carries its mnemonic. -/
def Statement (i : Instr) : Prop :=
  i.wf = true → ∃ r ∈ opcodeMap, r.mnemonic = mnemonicOf i ∧ r.selects (encode i) = true

theorem owrst : Statement .owrst := fun _ => ⟨⟨"OWRST", 0x0100, 0xFFFF⟩, by decide, rfl, by decide⟩

theorem owwbit (v : Byte) : Statement (.owwbit v) := fun h =>
  ⟨⟨"OWWBIT", 0x0200, 0xFFFE⟩, by decide, rfl, by revert h; revert v; decide⟩

theorem owrbit : Statement .owrbit := fun _ => ⟨⟨"OWRBIT", 0x0300, 0xFFFF⟩, by decide, rfl, by decide⟩

theorem owwbyte (b : Byte) : Statement (.owwbyte b) := fun _ =>
  ⟨⟨"OWWBYTE", 0x0400, 0xFF00⟩, by decide, rfl, by revert b; decide⟩

theorem owrbyte : Statement .owrbyte := fun _ => ⟨⟨"OWRBYTE", 0x0500, 0xFFFF⟩, by decide, rfl, by decide⟩

theorem brev (x : Byte) : Statement (.brev x) := fun _ =>
  ⟨⟨"BREV", 0x0600, 0xFF00⟩, by decide, rfl, by revert x; decide⟩

theorem cvt1 : Statement .cvt1 := fun _ => ⟨⟨"CVT1", 0x0700, 0xFFFF⟩, by decide, rfl, by decide⟩

theorem cvt2 : Statement .cvt2 := fun _ => ⟨⟨"CVT2", 0x0800, 0xFFFF⟩, by decide, rfl, by decide⟩

theorem enc : Statement .enc := fun _ => ⟨⟨"ENC", 0x0900, 0xFFFF⟩, by decide, rfl, by decide⟩

theorem dput : Statement .dput := fun _ => ⟨⟨"DPUT", 0x0A00, 0xFFFF⟩, by decide, rfl, by decide⟩

end Sys2Proof.Laws.TableRow
end

