-- ==== Sys2Proof/Laws/Step.lean ====
section
/-! SUPPORT. What one step can do, by cases on `BUSY` and the next input, each an equation the proofs cite instead of unfolding `step`. -/

namespace Sys2Proof.Machine

/-- An input that is a legal command word written to `CMD`. -/
def commandOf : Input → Option Instr
  | .write a v => if a = 0x00 then (match decode (cmdWord v) with | .ok i => some i | .error _ => none) else none
  | _          => none

theorem commandOf_some {x : Input} {i : Instr} (h : commandOf x = some i) :
    ∃ v, x = .write 0x00 v ∧ decode (cmdWord v) = .ok i := by
  cases x with
  | write a v =>
    simp only [commandOf] at h
    split at h
    · next ha =>
      split at h
      · next j hd => cases h; exact ⟨v, by rw [ha], hd⟩
      · cases h
    · cases h
  | _ => simp [commandOf] at h

/-- The next input of an idle block either starts an operation or has its effect (R61). -/
theorem arrive_cons {s : State} {e : Arrival} {rest : List Arrival} (h : s.inputs = e :: rest) :
    s.arrive = match commandOf e.input with
      | some i => .command i { s with inputs := rest }
      | none   => .settled (({ s with inputs := rest } : State).accept e.input) := by
  obtain ⟨a, x⟩ := e
  cases x with
  | write a v =>
    simp only [State.arrive, h, commandOf, State.accept]
    by_cases ha : a = 0
    · simp only [ha, if_true]
      cases decode (cmdWord v) <;> rfl
    · simp [ha]
  | _ => simp [State.arrive, h, commandOf]

theorem step_idle_nothing {s : State} (hb : s.busy = false) (h : s.inputs = []) : step s = .next s := by
  simp [step, hb, State.arrive, h]

theorem step_idle_command {s : State} {e : Arrival} {rest : List Arrival} {i : Instr} (hb : s.busy = false)
    (h : s.inputs = e :: rest) (hc : commandOf e.input = some i) : step s = exec i { s with inputs := rest } := by
  unfold step
  rw [if_neg (by simp [hb]), arrive_cons h, hc]

theorem step_idle_settled {s : State} {e : Arrival} {rest : List Arrival} (hb : s.busy = false)
    (h : s.inputs = e :: rest) (hc : commandOf e.input = none) :
    step s = .next (({ s with inputs := rest } : State).accept e.input) := by
  unfold step
  rw [if_neg (by simp [hb]), arrive_cons h, hc]

theorem step_busy {s : State} (hb : s.busy = true) : step s = tick s := by simp [step, hb]

theorem tick_due {s : State} {e : Arrival} {rest : List Arrival} (h : s.inputs = e :: rest) (hd : s.due e = true) :
    tick s = .next (({ s with inputs := rest } : State).accept e.input) := by
  unfold tick
  rw [h]
  simp only [hd, if_true]

/-- No input is due. -/
def State.noneDue (s : State) : Prop := ∀ e ∈ s.inputs.head?, s.due e = false

theorem tick_hung {s : State} (hd : s.noneDue) (hh : s.hung = true) : tick s = .fault .busWedged := by
  unfold tick
  cases h : s.inputs with
  | nil => simp [hh]
  | cons e rest =>
    have : s.due e = false := hd e (by simp [h])
    simp [this, hh]

theorem tick_prim {s : State} {p : Prim} (hd : s.noneDue) (hh : s.hung = false) (hp : s.program[s.stp]? = some p) :
    tick s = .next (primStep p s) := by
  unfold tick
  cases h : s.inputs with
  | nil => simp [hh, hp]
  | cons e rest =>
    have : s.due e = false := hd e (by simp [h])
    simp [this, hh, hp]

/-- All a step can do, if it answers a next state. -/
theorem step_cases {s t : State} (h : step s = .next t) :
    (s.busy = false ∧ s.inputs = [] ∧ t = s) ∨
    (s.busy = false ∧ ∃ e rest i, s.inputs = e :: rest ∧ commandOf e.input = some i ∧ exec i { s with inputs := rest } = .next t) ∨
    (s.busy = false ∧ ∃ e rest, s.inputs = e :: rest ∧ commandOf e.input = none ∧
      t = ({ s with inputs := rest } : State).accept e.input) ∨
    (s.busy = true ∧ ∃ e rest, s.inputs = e :: rest ∧ s.due e = true ∧ t = ({ s with inputs := rest } : State).accept e.input) ∨
    (s.busy = true ∧ s.noneDue ∧ s.hung = false ∧ ∃ p, s.program[s.stp]? = some p ∧ t = primStep p s) := by
  rcases Bool.eq_false_or_eq_true s.busy with hb | hb
  · rw [step_busy hb] at h
    by_cases hd : s.noneDue
    · rcases Bool.eq_false_or_eq_true s.hung with hh | hh
      · rw [tick_hung hd hh] at h; cases h
      · rcases Option.eq_none_or_eq_some s.program[s.stp]? with hp | ⟨p, hp⟩
        · exfalso
          unfold tick at h
          split at h
          · next e rest hi =>
            have : s.due e = false := hd e (by simp [hi])
            simp [this, hh, hp] at h
          · simp [hh, hp] at h
        · rw [tick_prim hd hh hp] at h
          cases h
          exact .inr (.inr (.inr (.inr ⟨hb, hd, hh, p, hp, rfl⟩)))
    · by_cases hn : s.inputs = []
      · simp [State.noneDue, hn] at hd
      · obtain ⟨e, rest, hi⟩ := List.exists_cons_of_ne_nil hn
        have hd' : s.due e = true := by simpa [State.noneDue, hi] using hd
        rw [tick_due hi hd'] at h
        cases h
        exact .inr (.inr (.inr (.inl ⟨hb, e, rest, hi, hd', rfl⟩)))
  · by_cases hn : s.inputs = []
    · rw [step_idle_nothing hb hn] at h; cases h; exact .inl ⟨hb, hn, rfl⟩
    · obtain ⟨e, rest, hi⟩ := List.exists_cons_of_ne_nil hn
      rcases Option.eq_none_or_eq_some (commandOf e.input) with hc | ⟨i, hc⟩
      · rw [step_idle_settled hb hi hc] at h; cases h; exact .inr (.inr (.inl ⟨hb, e, rest, hi, hc, rfl⟩))
      · rw [step_idle_command hb hi hc] at h; exact .inr (.inl ⟨hb, e, rest, i, hi, hc, h⟩)

end Sys2Proof.Machine
end

