-- ==== Sys2Proof/Laws/Run.lean ====
section
/-! SUPPORT. Runs of an operation with inputs landing in it: the induction over `exec`, what a landing input and a primitive keep, and the
run up to the first input. -/

namespace Sys2Proof.Machine

/-! ## Inductions -/

/-- The induction over an operation: what holds of the accepted state and survives every landing input and every primitive of the
operation holds of the state `exec` gives. -/
theorem exec_induction {P : State → Prop} {i : Instr} {s t : State} (h : exec i s = .next t) (start : P (s.started i))
    (land : ∀ u e rest, P u → u.busy = true → u.inputs = e :: rest → e.after = some 0 →
      P (({ u with inputs := rest } : State).accept e.input))
    (prim : ∀ u, ∀ p ∈ progOf s.cfg i, P u → u.busy = true → u.hung = false → P (primStep p u)) : P t := by
  rw [exec_eq] at h
  cases h
  exact runPrims_induction _ land prim _ start

/-- A primitive takes no input away. -/
theorem primStep_map_input (p : Prim) (s : State) :
    (primStep p s).inputs.map Arrival.input = s.inputs.map Arrival.input := by
  rcases primStep_cases p s with ⟨_, h⟩ | ⟨_, h⟩ <;> rw [h]
  · rfl
  · exact countDown_map_input _

/-- What a split of the inputs says about the inputs that have landed. -/
theorem landed_map_input {s t : State} {l : List Input} (h : s.inputs.map Arrival.input = l ++ t.inputs.map Arrival.input) :
    (landed s t).map Arrival.input = l := by
  have hl : s.inputs.length = l.length + t.inputs.length := by simpa using congrArg List.length h
  rw [landed, List.map_take, h, show s.inputs.length - t.inputs.length = l.length by omega, List.take_left]

/-- The induction over an operation that also follows the inputs that have landed. -/
theorem exec_landed_induction {P : List Input → State → Prop} {i : Instr} {s t : State} (h : exec i s = .next t)
    (start : P [] (s.started i))
    (land : ∀ l u e rest, P l u → u.busy = true → u.inputs = e :: rest → e.after = some 0 →
      P (l ++ [e.input]) (({ u with inputs := rest } : State).accept e.input))
    (prim : ∀ l u, ∀ p ∈ progOf s.cfg i, P l u → u.busy = true → u.hung = false → P l (primStep p u)) :
    P ((landed s t).map Arrival.input) t := by
  have key : ∃ l, s.inputs.map Arrival.input = l ++ t.inputs.map Arrival.input ∧ P l t := by
    refine exec_induction (P := fun u => ∃ l, s.inputs.map Arrival.input = l ++ u.inputs.map Arrival.input ∧ P l u) h
      ⟨[], rfl, start⟩ ?_ ?_
    · rintro u e rest ⟨l, hl, hp⟩ hb hi ha
      exact ⟨l ++ [e.input], by rw [accept_inputs, hl, hi]; simp, land l u e rest hp hb hi ha⟩
    · rintro u p hm ⟨l, hl, hp⟩ hb hh
      exact ⟨l, by rw [primStep_map_input]; exact hl, prim l u p hm hp hb hh⟩
  obtain ⟨l, hl, hp⟩ := key
  rwa [landed_map_input hl]

/-- The induction over one step, whatever it is: what holds before it and survives a landing input, an acceptance and a primitive holds
after it, with the inputs that have landed. -/
theorem step_landed_induction {P : List Input → State → Prop} {s t : State} (h : step s = .next t) (h0 : P [] s)
    (land : ∀ l u e rest, P l u → u.inputs = e :: rest → (u.busy = false → commandOf e.input = none) →
      (u.busy = true → e.after ≠ none) → P (l ++ [e.input]) (({ u with inputs := rest } : State).accept e.input))
    (start : ∀ l u e rest i, P l u → u.busy = false → u.inputs = e :: rest → commandOf e.input = some i →
      P (l ++ [e.input]) (({ u with inputs := rest } : State).started i))
    (prim : ∀ l u p, P l u → u.busy = true → u.hung = false → P l (primStep p u)) :
    P ((landed s t).map Arrival.input) t := by
  rcases step_cases h with
    ⟨_, _, rfl⟩ | ⟨hb, e, rest, i, hi, hc, he⟩ | ⟨hb, e, rest, hi, hc, rfl⟩ | ⟨hb, e, rest, hi, hd, rfl⟩ | ⟨hb, _, hh, p, _, rfl⟩
  · rw [landed_map_input (l := []) rfl]; exact h0
  · have key := exec_landed_induction (P := fun l u => P (e.input :: l) u) he (by simpa using start [] s e rest i h0 hb hi hc)
      (fun l u e' r hp hb' hi' ha => by
        simpa using land _ u e' r hp hi' (fun hf => by rw [hb'] at hf; cases hf) (fun _ => by rw [ha]; exact nofun))
      (fun l u p _ hp hb' hh => prim _ u p hp hb' hh)
    have hs : ∃ l, s.inputs.map Arrival.input = e.input :: l ++ t.inputs.map Arrival.input ∧ P (e.input :: l) t := by
      refine ⟨_, ?_, key⟩
      have hsub : ∃ l, rest.map Arrival.input = l ++ t.inputs.map Arrival.input := by
        refine exec_induction (P := fun u => ∃ l, rest.map Arrival.input = l ++ u.inputs.map Arrival.input) he ⟨[], rfl⟩ ?_ ?_
        · rintro u e' r ⟨l, hl⟩ _ hi' _
          exact ⟨l ++ [e'.input], by rw [accept_inputs, hl, hi']; simp⟩
        · rintro u p _ ⟨l, hl⟩ _ _
          exact ⟨l, by rw [primStep_map_input]; exact hl⟩
      obtain ⟨l, hl⟩ := hsub
      rw [hi, List.map_cons, landed_map_input (s := { s with inputs := rest }) hl, hl, List.cons_append]
    obtain ⟨l, hl, hp⟩ := hs
    rwa [landed_map_input hl]
  · rw [landed_map_input (l := [e.input]) (by rw [accept_inputs, hi]; rfl)]
    exact land [] s e rest h0 hi (fun _ => hc) (fun hf => by rw [hb] at hf; cases hf)
  · rw [landed_map_input (l := [e.input]) (by rw [accept_inputs, hi]; rfl)]
    exact land [] s e rest h0 hi (fun hf => by rw [hb] at hf; cases hf) (fun _ ha => by simp [State.due, ha] at hd)
  · rw [landed_map_input (l := []) (by rw [primStep_map_input]; rfl)]
    exact prim [] s p h0 hb hh

/-- `noReset` is a matter of the inputs alone. -/
theorem noReset_iff (l : List Arrival) : noReset l = true ↔ ∀ x ∈ l.map Arrival.input, x ≠ .reset := by
  simp [noReset]

/-- A property of all inputs outlives the landing of the first. -/
theorem forall_accept {P : Input → Prop} {s : State} {e : Arrival} {rest : List Arrival} (hi : s.inputs = e :: rest)
    (h : ∀ x ∈ s.inputs, P x.input) : ∀ x ∈ (({ s with inputs := rest } : State).accept e.input).inputs, P x.input := by
  rw [accept_inputs]
  intro x hx
  exact h x (by rw [hi]; exact List.mem_cons_of_mem _ hx)

/-- Only the operation it belongs to holds a primitive that writes a result register (R23). -/
theorem progOf_owner (c : Cfg) (i : Instr) (p : Prim) (h : p ∈ progOf c i) :
    (p = .latchPres → i = .owrst) ∧ (p = .latchRbit → i = .owrbit) ∧ (p = .latchRdata → i = .owrbyte) ∧
    (p = .reverse → ∃ x, i = .brev x) ∧ (p = .convert1 → i = .cvt1) ∧ (p = .convert2 → i = .cvt2) ∧ (p = .encode → i = .enc) := by
  cases p <;> simp <;> cases i <;>
    simp [progOf, owrstProg, owwbitProg, owrbitProg, owwbyteProg, owrbyteProg, brevProg, cvt1Prog, cvt2Prog, encProg, dputProg,
      writeBitProg, readBitProg, rounds] at h ⊢

/-! ## What an input and a primitive keep -/

/-- No input changes the configuration (R194). -/
@[simp] theorem accept_cfg (i : Input) (s : State) : (s.accept i).cfg = s.cfg := by
  cases i with
  | write a v =>
    simp only [State.accept, State.hostWrite, State.writeData]
    repeat' split
    all_goals simp
  | _ => rfl

/-- An input that is no reset leaves the traces and `OVF` alone, and clears no flag (R29, R75, R100). -/
theorem accept_noReset {x : Input} (hx : x ≠ .reset) (s : State) :
    (s.accept x).lt = s.lt ∧ (s.accept x).sink = s.sink ∧ (s.accept x).ovf = s.ovf ∧
    (s.ill = true → (s.accept x).ill = true) ∧ (s.cerr = true → (s.accept x).cerr = true) := by
  cases x with
  | write a v =>
    simp only [State.accept, State.hostWrite, State.writeData]
    repeat' split
    all_goals simp [State.raise]
  | reset => exact absurd rfl hx
  | _ => simp [State.accept, State.hostRead]

@[simp] theorem primStep_cfg (p : Prim) (s : State) : (primStep p s).cfg = s.cfg := by
  rcases primStep_cases p s with ⟨_, h⟩ | ⟨_, h⟩ <;> rw [h] <;> simp [advance]

/-- What a primitive leaves alone, stuck or not: the flags that are not its own, the host's side and the accepted word. -/
theorem primStep_frame (p : Prim) (s : State) :
    (primStep p s).ill = s.ill ∧ (primStep p s).cerr = s.cerr ∧ (primStep p s).raw = s.raw ∧ (primStep p s).held = s.held ∧
    (primStep p s).got = s.got ∧ (primStep p s).opc = s.opc ∧ (primStep p s).imm = s.imm := by
  rcases primStep_cases p s with ⟨_, h⟩ | ⟨_, h⟩ <;> rw [h] <;> simp [advance]

/-- A primitive the sequencer is not stuck at: one fewer to wait for, and on to the next. -/
theorem primStep_moves {p : Prim} {s : State} (h : s.sticks p = false) :
    primStep p s = { advance s p with inputs := countDown s.inputs } := by
  rcases primStep_cases p s with ⟨h1, _⟩ | ⟨_, h2⟩
  · rw [h] at h1; cases h1
  · exact h2

/-- A primitive appends to the traces and clears no `OVF` (R29, R75, R100). -/
theorem execPrim_grow (p : Prim) (s : State) :
    s.lt <+: (execPrim p s).lt ∧ s.sink <+: (execPrim p s).sink ∧ (s.ovf = true → (execPrim p s).ovf = true) := by
  cases p <;>
    simp [execPrim, State.driveLow, State.release, State.waitFor, State.emit, State.sense, State.put, State.convert1, State.convert2,
      State.storeScaled]
  simp only [State.encodeGlyphs]
  split <;> simp

/-- The host's inputs, its reads and `CERR` steer no primitive (R174). -/
theorem execPrim_hostSide (p : Prim) (s : State) (l : List Arrival) (c : Bool) (g : List ReadBack) :
    execPrim p { s with inputs := l, cerr := c, got := g } = { execPrim p s with inputs := l, cerr := c, got := g } := by
  cases p with
  | encode => simp only [execPrim, State.encodeGlyphs]; split <;> simp [State.raise]
  | _ => rfl

/-- The fault flags steer no primitive (R29). -/
theorem execPrim_flags (p : Prim) (s : State) (a b c : Bool) :
    ∃ o, execPrim p { s with ovf := a, ill := b, cerr := c } = { execPrim p s with ovf := o, ill := b, cerr := c } := by
  cases p with
  | encode => simp only [execPrim, State.encodeGlyphs]; split <;> simp [State.raise]
  | _ => exact ⟨a, rfl⟩

/-! ## Between two primitives -/

/-- A run of `i` after the primitives `done`: a reset has ended it, or the line, the bit counter and `STEP` are as `done` left them. -/
def Between (c : Cfg) (i : Instr) (done : List Prim) (s : State) : Prop :=
  s.cfg = c ∧ s.fmt &&& 0x78 = 0 ∧ s.hung = false ∧
    ((s.busy = false ∧ s.atRest) ∨
      (s.busy = true ∧ s.opc = opcOf i ∧ s.imm = immOf i ∧ s.stp = done.length ∧ s.drv = drvAfter done false ∧
        s.bitcnt = cntAfter done 0))

theorem between_accept {c : Cfg} {i : Instr} {done : List Prim} {s : State} (h : Between c i done s) (hb : s.busy = true)
    (x : Input) (rest : List Arrival) : Between c i done (({ s with inputs := rest } : State).accept x) := by
  rcases accept_busy (s := { s with inputs := rest }) hb x with
    ⟨_, _, _, he⟩ | ⟨_, _, he⟩ | ⟨_, he⟩ | ⟨_, _, he⟩ | ⟨_, _, he⟩
  · rw [he]; exact h
  · rw [he]; exact h
  · rw [he]; exact ⟨h.1, show (0 : Byte) &&& 0x78 = 0 by decide, rfl, .inl ⟨rfl, rfl, rfl, rfl⟩⟩
  · rw [he]; exact h
  · rw [he]; exact h

theorem between_prim {c : Cfg} {i : Instr} {done : List Prim} {s : State} (h : Between c i done s) (hb : s.busy = true) {p : Prim}
    (hp : p ≠ .finish) (hs : s.sticks p = false) : Between c i (done ++ [p]) (primStep p s) := by
  obtain ⟨h1, h2, h3, h4 | ⟨-, h5, h6, h7, h8, h9⟩⟩ := h
  · simp [h4.1] at hb
  · rw [primStep_moves hs]
    refine ⟨by simp [advance, h1], ?_, by simp [advance, h3],
      .inr ⟨by simp [advance, execPrim_busy, hb, hp], by simp [advance, h5], by simp [advance, h6], by simp [advance, h7], ?_, ?_⟩⟩
    · rcases execPrim_fmt p s with h | ⟨b, h⟩ <;> simp only [advance, h]
      · exact h2
      · exact fmtValue_reserved _ _
    · simp only [advance]; rw [execPrim_drv, drvAfter_append, h8]
    · simp only [advance]; rw [execPrim_bitcnt, cntAfter_append, h9]

/-- A sequencer stuck after `done` stands where it stood, with `BUSY = 1` and the line released or not as before (R133). -/
theorem between_stuck {c : Cfg} {i : Instr} {done : List Prim} {s : State} (h : Between c i done s) (hb : s.busy = true) {p : Prim}
    (hs : s.sticks p = true) :
    p = .driveFirst ∧ c.wedgeHangs = true ∧ (primStep p s).hung = true ∧ (primStep p s).busy = true ∧ (primStep p s).cfg = c ∧
    (primStep p s).fmt &&& 0x78 = 0 ∧ (primStep p s).opc = opcOf i ∧ (primStep p s).imm = immOf i ∧
    (primStep p s).stp = done.length ∧ (primStep p s).drv = drvAfter done false ∧ (primStep p s).bitcnt = cntAfter done 0 := by
  obtain ⟨hp, hw, -⟩ := sticks_iff.1 hs
  obtain ⟨h1, h2, h3, h4 | ⟨-, h5, h6, h7, h8, h9⟩⟩ := h
  · simp [h4.1] at hb
  · have he : primStep p s = { s.questioned with hung := true } := by unfold primStep; rw [if_pos hs]
    rw [he]
    exact ⟨hp, h1 ▸ hw, rfl, hb, h1, h2, h5, h6, h7, h8, h9⟩

/-- `finish` leaves the block at rest (R39). -/
theorem between_finish {c : Cfg} {i : Instr} {done : List Prim} {s : State} (h : Between c i done s) (hb : s.busy = true)
    (hp : progOf c i = done ++ [.finish]) :
    (primStep .finish s).busy = false ∧ (primStep .finish s).atRest ∧ (primStep .finish s).fmt &&& 0x78 = 0 := by
  obtain ⟨-, h2, h3, h4 | ⟨-, -, -, -, h8, h9⟩⟩ := h
  · simp [h4.1] at hb
  · have hr := progOf_ends_at_rest c i
    rw [hp, drvAfter_append, cntAfter_append] at hr
    exact ⟨rfl, ⟨h8.trans hr.1, h9.trans hr.2, h3⟩, h2⟩

/-! ## The first input -/

/-- None of the primitives before the last is `finish`. -/
theorem finish_notMem_take {c : Cfg} {i : Instr} {n : Nat} (h : n < (progOf c i).length) : .finish ∉ (progOf c i).take n := by
  obtain ⟨ps, hp, hf⟩ := progOf_finish c i
  rw [hp] at h ⊢
  rw [List.take_append_of_le_length (by simp at h; omega)]
  exact fun hh => hf (List.mem_of_mem_take hh)

/-- Nothing but loading `SR` and `BITCNT` comes before a first `DriveLow()`, and there is at most one. -/
def opensOnce : List Prim → Prop
  | [] => True
  | p :: ps => if p = .loadSr ∨ p = .clearSr then opensOnce ps else .driveFirst ∉ ps

theorem progOf_opensOnce (c : Cfg) (i : Instr) : opensOnce (progOf c i) := by
  cases i <;>
    simp [opensOnce, progOf, owrstProg, owwbitProg, owrbitProg, owwbyteProg, owrbyteProg, brevProg, cvt1Prog, cvt2Prog, encProg,
      dputProg, writeBitProg, readBitProg, rounds, List.finRange_succ]

/-- A usable line stays usable up to the first `DriveLow()`, and then it no longer matters (R133). -/
theorem usable_next {p : Prim} {ps : List Prim} {s : State} (ho : opensOnce (p :: ps))
    (hu : s.lineUsable = true ∨ .driveFirst ∉ p :: ps) :
    s.sticks p = false ∧ opensOnce ps ∧ ∀ l, ({ advance s p with inputs := l } : State).lineUsable = true ∨ .driveFirst ∉ ps := by
  have hs : s.sticks p = false := by
    rcases hu with hu | hu
    · exact not_sticks_of_usable hu p
    · exact not_sticks_of_ne (fun h => hu (by simp [h])) s
  rw [opensOnce] at ho
  split at ho
  · next hp =>
    refine ⟨hs, ho, fun l => ?_⟩
    rcases hu with hu | hu
    · exact .inl (by rcases hp with rfl | rfl <;> exact hu)
    · exact .inr fun h => hu (List.mem_cons_of_mem _ h)
  · refine ⟨hs, ?_, fun _ => .inr ho⟩
    cases ps with
    | nil => trivial
    | cons q qs =>
      have : ∀ qs : List Prim, .driveFirst ∉ qs → opensOnce qs := by
        intro qs
        induction qs with
        | nil => intro _; trivial
        | cons q qs ih =>
          intro h
          rw [opensOnce]
          have h' : .driveFirst ∉ qs := fun hm => h (List.mem_cons_of_mem _ hm)
          split
          · exact ih h'
          · exact h'
      exact this _ ho

/-- A run on a usable line whose first input lands before its primitive number `n`: nothing else lands before it, and the run goes on from
there. -/
theorem runPrims_until (x : Input) (rest : List Arrival) (ps : List Prim) : ∀ (n : Nat) (s : State), n < ps.length →
    .finish ∉ ps.take n → opensOnce ps → (s.lineUsable = true ∨ .driveFirst ∉ ps) → s.busy = true → s.hung = false →
    s.inputs = ⟨some n, x⟩ :: rest →
    ∃ u : State, u.busy = true ∧ u.hung = false ∧ u.inputs = rest ∧ u.cfg = s.cfg ∧ u.got = s.got ∧
      opensOnce (ps.drop n) ∧ (u.lineUsable = true ∨ .driveFirst ∉ ps.drop n) ∧
      runPrims ps s =
        let t := landDue rest (u.accept x)
        if t.busy then runPrims (ps.drop n).tail (primStep ((ps.drop n).head?.getD .finish) t) else t := by
  induction ps with
  | nil => intro n s h; simp at h
  | cons p ps ih =>
    intro n s h hf ho hu hb hh hi
    cases n with
    | zero =>
      refine ⟨{ s with inputs := rest }, hb, hh, rfl, rfl, rfl, ho, hu, ?_⟩
      rw [runPrims_cons hh, hi]
      simp [landDue, hb]
    | succ n =>
      have h1 : landDue s.inputs s = s := by simp [hi, landDue]
      obtain ⟨hs, ho', hu'⟩ := usable_next ho hu
      simp only [List.length_cons, Nat.add_lt_add_iff_right, List.take_succ_cons, List.mem_cons, not_or] at h hf
      have hp := primStep_moves hs
      obtain ⟨u, a, b, c, d, e, f, g, r⟩ := ih n (primStep p s) h hf.2 ho' (by rw [hp]; exact hu' _)
        (by rw [hp]; simp [advance, execPrim_busy, hb, Ne.symm hf.1]) (by rw [hp]; simpa [advance] using hh)
        (by rw [hp, hi]; rfl)
      refine ⟨u, a, b, c, by rw [d, primStep_cfg], by rw [e, hp]; simp [advance], f, g, ?_⟩
      rw [runPrims_cons hh, h1, if_pos hb, r]
      simp

end Sys2Proof.Machine
end

