-- ==== Sys2Proof/Tests/Slice0.lean ====
section
/-! SUPPORT. Tests, with expected results from `spec/95_test_vectors.md` (its parts S and V) or read off the encoding tables of
`spec/30_encoding.md`, and for every statement with hypotheses a witness that meets them. -/

open Sys2Proof Sys2Proof.Machine

namespace Sys2Proof.Tests

/-! ## Helpers -/

/-- A field of the next state, if there is one. -/
def after {α : Type} (o : Host.Outcome State Fault Refusal) (f : State → α) : Option α :=
  match o with
  | .next t    => some (f t)
  | .fault _   => none
  | .refused _ => none

/-- Reset, with the environment's next answers. -/
def hearing (levels : List Bool) : State := { State.reset with levels := levels }

/-- One step from `s` with the word about to be written to `CMD`. -/
def run (w : Nat) (s : State) : Host.Outcome State Fault Refusal := step (s.withFetchWord 16 w)

/-- Reset, with one input to come that waits for `BUSY = 0`. -/
def idle (i : Input) : State := { State.reset with inputs := [⟨none, i⟩] }

/-- In the middle of `OWRST` (after its first primitive), with one input due now. -/
def inReset (i : Input) : State :=
  { State.reset with busy := true, opc := 1, stp := 1, drv := true, lt := [.low], inputs := [⟨some 0, i⟩] }

/-- Reset, with an input that lands after `n` primitives of the next operation. -/
def during (n : Nat) (i : Input) : State := { State.reset with inputs := [⟨some n, i⟩] }

/-- A device holds the line low. -/
def wedged (hangs : Bool) : State := { State.reset with held := true, cfg := { Cfg.default with wedgeHangs := hangs } }

/-- The glyph codes with those indices in the default table. -/
def glyphs (l : List Nat) : List Byte := l.map (glyphAt Cfg.default)

/-! ## Well-formedness -/

theorem test_wf_refuses_a_two_bit_operand : Instr.wf (.owwbit 0x02) = false := by decide
theorem test_wf_refuses_the_top_bit : Instr.wf (.owwbit 0x80) = false := by decide
theorem test_wf_takes_both_bits : Instr.wf (.owwbit 0) = true ∧ Instr.wf (.owwbit 1) = true := by decide

/-! ## Words written out bit by bit (R80, R83): mbz, opc, imm8 -/

theorem test_word_owrst : decode 0b0000_0001_00000000 = .ok .owrst := by decide
theorem test_word_owwbit : decode 0b0000_0010_00000001 = .ok (.owwbit 1) := by decide
theorem test_word_owrbit : decode 0b0000_0011_00000000 = .ok .owrbit := by decide
theorem test_word_owwbyte : decode 0b0000_0100_11001100 = .ok (.owwbyte 0b11001100) := by decide
theorem test_word_owrbyte : decode 0b0000_0101_00000000 = .ok .owrbyte := by decide
theorem test_word_brev : decode 0b0000_0110_00010010 = .ok (.brev 0x12) := by decide
theorem test_word_cvt1 : decode 0b0000_0111_00000000 = .ok .cvt1 := by decide
theorem test_word_cvt2 : decode 0b0000_1000_00000000 = .ok .cvt2 := by decide
theorem test_word_enc : decode 0b0000_1001_00000000 = .ok .enc := by decide
theorem test_word_dput : decode 0b0000_1010_00000000 = .ok .dput := by decide

/-- The illegal words of V1. -/
theorem test_illegal_words :
    ∀ w ∈ ([0x0000, 0x0101, 0x0202, 0x02FF, 0x0380, 0x0501, 0x0A01, 0x0B00, 0x0F00, 0x1100, 0x8100, 0xFFFF] : List Nat),
      decodeTableWord 16 w = none := by decide

theorem test_table_word : decodeTableWord 16 0x06A5 = some (.brev 0xA5) ∧ decodeTableWord 16 0x0A00 = some .dput := by decide
theorem test_encode : encode (.owwbyte 0x44) = 0x0444 ∧ encode .dput = 0x0A00 ∧ encode (.owwbit 1) = 0x0201 := by decide

/-! ## The bus commands (V2, V3) -/

/-- `RST(0)`, `PRES = 1`. -/
theorem test_owrst_presence : after (run 0x0100 (hearing [false])) (fun t => (t.lt, t.pres, t.statusBits)) =
    some ([.low, .wait 480, .rel, .wait 85, .sample false, .wait 395], true, 0x02) := by decide
theorem test_owrst_no_device : after (run 0x0100 (hearing [true])) (fun t => (t.pres, t.statusBits)) = some (false, 0x00) := by
  decide

/-- `W1`, and `W0` with the other configuration of V2. -/
theorem test_owwbit_one : after (run 0x0201 State.reset) (fun t => t.lt) = some [.low, .wait 14, .rel, .wait 47] := by decide
theorem test_owwbit_zero_other_cfg :
    after (run 0x0200 { State.reset with cfg := { Cfg.default with tW1L := 6, tW0L := 60, tWslot := 70 } }) (fun t => t.lt) =
      some [.low, .wait 60, .rel, .wait 10] := by decide

/-- `R(1)`, `RBIT = 1`, `STATUS = 0x04`. -/
theorem test_owrbit_high : after (run 0x0300 (hearing [true])) (fun t => (t.lt, t.statusBits)) =
    some ([.low, .wait 1, .rel, .wait 13, .sample true, .wait 47], 0x04) := by decide
theorem test_owrbit_low :
    after (run 0x0300 { hearing [false] with rbit := true }) (fun t => (t.rbit, t.pres)) = some (false, false) := by decide

/-- The slots of 0xCC and 0x01. -/
theorem test_owwbyte_cc : after (run 0x04CC State.reset) (fun t => (lowPulses t.lt, t.lt.length, t.sr)) =
    some ([60, 60, 14, 14, 60, 60, 14, 14], 32, 0) := by decide
theorem test_owwbyte_01 : after (run 0x0401 State.reset) (fun t => (lowPulses t.lt, t.drv)) =
    some ([14, 60, 60, 60, 60, 60, 60, 60], false) := by decide

theorem test_owrbyte_91 : after (run 0x0500 (hearing [true, false, false, false, true, false, false, true]))
    (fun t => (t.sr, t.rdata, t.lt.length)) = some (0x89, 0x91, 48) := by decide
theorem test_owrbyte_last_bit : after (run 0x0500 (hearing [false, false, false, false, false, false, false, true]))
    (fun t => (t.sr, t.rdata, t.rbit)) = some (0x01, 0x80, false) := by decide

theorem test_brev_12 : after (run 0x0612 State.reset) (fun t => (t.rdata, t.lt)) = some (0x48, []) := by decide
theorem test_brev_7f : after (run 0x067F State.reset) (fun t => t.rdata) = some 0xFE := by decide

/-! ## The wedged line (R133, D21) -/

/-- A held line sticks the operation at its first `DriveLow()`; a byte is in `SR` by then. -/
theorem test_wedge_sticks : after (run 0x04CC (wedged true)) (fun t => (t.hung, t.busy, t.lt, t.sr, t.stp)) =
    some (true, true, [], 0xCC, 1) := by decide
/-- A line that reads low by the environment's answer sticks it too, and one that reads high does not; the answer is used up. -/
theorem test_wedge_reads_low :
    after (exec .owrst { wedged true with held := false, levels := [false, true] }) (fun t => (t.hung, t.levels)) =
      some (true, [true]) ∧
    after (exec .owrst { wedged true with held := false, levels := [true, false] }) (fun t => (t.hung, t.pres, t.levels)) =
      some (false, true, []) := by decide
/-- A device that frees the line between acceptance and the first `DriveLow()` lets the operation run. -/
theorem test_wedge_freed_in_time :
    after (exec (.owwbyte 0xCC) { wedged true with levels := [true], inputs := [⟨some 1, .hold false⟩] })
      (fun t => (t.hung, t.lt.length, t.busy)) = some (false, 32, false) := by decide
/-- One that seizes it in between sticks it, and one that seizes it later does not. -/
theorem test_wedge_seized :
    after (exec (.owwbyte 0xCC) { wedged true with held := false, levels := [true], inputs := [⟨some 1, .hold true⟩] })
      (fun t => (t.hung, t.lt)) = some (true, []) ∧
    after (exec (.owwbyte 0xCC) { wedged true with held := false, levels := [true], inputs := [⟨some 2, .hold true⟩] })
      (fun t => (t.hung, t.lt.length)) = some (false, 32) := by decide

/-! ## The encoder (V4, V5, V6) -/

theorem test_cvt1_lowest : after (run 0x0700 { State.reset with raw := 0x8000 }) (fun t => (t.mag, t.fmt, t.raw)) =
    some (20480, 0x81, 0x8000) := by decide
theorem test_cvt1_minus_zero : after (run 0x0700 { State.reset with raw := 0xFFFF }) (fun t => (t.mag, t.fmt)) =
    some (0, 0x81) := by decide
theorem test_cvt2_sign_changes : after (run 0x0800 { State.reset with raw := 0xFF5E }) (fun t => (t.mag, t.fmt)) =
    some (137, 0x01) := by decide
theorem test_cvt2_minus_zero : after (run 0x0800 { State.reset with raw := 0xFEE3 }) (fun t => (t.mag, t.fmt)) =
    some (0, 0x81) := by decide

/-- S4. -/
theorem test_enc_205 : after (run 0x0900 { State.reset with mag := 205, fmt := 0x81 }) (fun t => (t.seq.toList, t.ovf, t.bcd)) =
    some (glyphs [5, 10, 2, 20, 21, 21, 21, 21], false, 0) := by decide
/-- The nearest refused input of V5. -/
theorem test_enc_overflow : after (run 0x0900 { State.reset with mag := 10000000, fmt := 0x80 }) (fun t => (t.ovf, t.busy)) =
    some (true, false) := by decide

theorem test_dput_order :
    after (run 0x0A00 { State.reset with seq := #v[0x6D, 0xBF, 0x5B, 0x40, 0, 0, 0, 0] })
      (fun t => t.sink.map fun e => (e.pos.val, e.code)) =
    some [(0, 0x6D), (1, 0xBF), (2, 0x5B), (3, 0x40), (4, 0), (5, 0), (6, 0), (7, 0)] := by decide
theorem test_dput_after_reset : after (run 0x0A00 State.reset) (fun t => (t.sink.length, t.lt)) = some (8, []) := by decide

/-- The packed digits and the other switch of V5. -/
theorem test_pack : packDigits 4294967295 = (0x94967295, 42) := by decide
theorem test_enc_blank_dp_zero :
    after (run 0x0900 { State.reset with mag := 50, fmt := 0x02, cfg := { Cfg.default with blankDpZero := true } })
      (fun t => t.seq.toList) = some (glyphs [0, 5, 21, 21, 21, 21, 21, 21]) := by decide

/-! ## The host (V7) -/

theorem test_write_fmt_masks : after (step (idle (.write 5 0x7A))) (fun t => t.fmt) = some 0x02 := by decide
theorem test_write_raw : after (step (idle (.write 3 0x12345678))) (fun t => t.raw) = some 0x5678 := by decide
theorem test_write_seq_does_nothing : after (step (idle (.write 8 0x55))) (fun t => (t.seq[0], t.statusBits)) = some (0, 0) := by
  decide
theorem test_read_glyph : after (step (idle (.read 0x24))) (fun t => t.got) = some [⟨0x24, 0x40⟩] := by decide
theorem test_illegal_word : after (step (idle (.write 0 0x0000))) (fun t => t.statusBits) = some 0x10 := by decide
theorem test_high_half_ignored :
    after (step { hearing [false] with inputs := [⟨none, .write 0 0xABCD0100⟩] }) (fun t => t.pres) = some true := by decide
/-- A write of a command word in the middle of `OWRST`: dropped, `CERR`, and no byte is sent. -/
theorem test_busy_write :
    after (exec .owrst { hearing [false] with inputs := [⟨some 3, .write 0 0x04CC⟩] })
      (fun t => (t.cerr, t.ill, t.pres, t.lt.length, t.busy)) = some (true, false, true, 6, false) := by decide

/-! ## Witnesses: the hypotheses of each statement met together -/

/-- The next operation is left alone by the host, and the line is usable. -/
theorem witness_quiet_usable_wf : State.reset.quiet = true ∧ State.reset.lineUsable = true ∧ State.reset.cfg.wf = true := by decide

/-- The same with an input that waits, on a held line that does not hang. -/
theorem witness_quiet_held :
    ({ wedged false with inputs := [⟨none, .read 2⟩] } : State).quiet = true ∧ (wedged false).lineUsable = true ∧
    (wedged false).held = true ∧ (wedged false).cfg.wedgeHangs = false ∧ (wedged false).cfg.wf = true := by decide

/-- A usable line under `WEDGE_HANGS`: it reads high when asked. -/
theorem witness_usable_under_wedgeHangs :
    ({ wedged true with held := false, levels := [true] } : State).lineUsable = true ∧
    ({ wedged true with held := false, levels := [true] } : State).quiet = true ∧ (wedged true).cfg.wf = true := by decide

theorem witness_DecodeOfEncodeIsTheCommand : Instr.wf (.owwbit 1) = true ∧ Instr.wf (.owwbyte 0xFF) = true := by decide
theorem witness_EncodeOfDecodedIsTheWord : decode 0x0201 = .ok (.owwbit 1) ∧ decode 0x06FF = .ok (.brev 0xFF) := by decide
theorem witness_LegalWordsSelectExactlyOneRow :
    decode 0x0201 = .ok (.owwbit 1) ∧ (⟨"OWWBIT", 0x0200, 0xFFFE⟩ : OpcodeRow) ∈ opcodeMap ∧
    (⟨"OWWBIT", 0x0200, 0xFFFE⟩ : OpcodeRow).selects 0x0201 = true := by decide
theorem witness_StepRunsTheDecodedCommand :
    (idle (.write 0 0xABCD0A00)).busy = false ∧ (idle (.write 0 0xABCD0A00)).inputs = ⟨none, .write 0 0xABCD0A00⟩ :: [] ∧
    decode (BitVec.setWidth 16 (0xABCD0A00 : Word)) = .ok .dput := by decide
theorem witness_AcceptanceLatchesTheWordAndSetsBusy : decode 0x04CC = .ok .owskip := by decide

/-- The read lands before the first primitive, and before the last. -/
theorem witness_StatusShowsBusyWhileAnOperationRuns :
    State.reset.lineUsable = true ∧ (during 0 (.read 1)).inputs = ⟨some 0, .read 0x01⟩ :: [] ∧
    State.quiet { during 0 (.read 1) with inputs := [] } = true ∧ 0 < (progOf Cfg.default .owrst).length ∧
    7 < (progOf Cfg.default .owrst).length := by decide
theorem witness_IdleBlockStaysAsItIs : State.reset.busy = false ∧ State.reset.inputs = [] := by decide

/-- One write for each clause: a legal word, an illegal one, `RAW`, `MAG`, `FMT`, and numbers that take nothing. -/
theorem witness_IdleWriteFollowsTheRegisterTable :
    (idle (.write 0 0)).busy = false ∧
    (∀ a ∈ [0, 1, 2, 3, 4, 5, 6, 0x3F, 0x40], (idle (.write a 1)).inputs = ⟨none, .write a 1⟩ :: []) ∧
    decode (BitVec.extractLsb' 0 16 (0x0100 : Word)) = .ok .owrst ∧
    decode (BitVec.extractLsb' 0 16 (0x0101 : Word)) = .error (.strayImmediate 1 1) := by decide

/-- One read for each clause, at both ends of the ranges. -/
theorem witness_IdleReadReturnsTheRegister :
    (∀ a ∈ [0, 1, 2, 3, 4, 5, 6, 7, 0x26, 0x3F], (idle (.read a)).busy = false ∧ (idle (.read a)).inputs = ⟨none, .read a⟩ :: []) ∧
    (0x08 = 0x08 + (0 : Fin 8).val ∧ 0x0F = 0x08 + (7 : Fin 8).val) ∧
    (0x10 = 0x10 + (0 : Fin 22).val ∧ 0x25 = 0x10 + (21 : Fin 22).val) := by decide
theorem witness_BusyWriteIsDroppedAndSetsCerr :
    ∀ a ∈ [0, 3, 0x3F], (inReset (.write a 1)).busy = true ∧ (inReset (.write a 1)).inputs = ⟨some 0, .write a 1⟩ :: [] := by decide
theorem witness_BusyReads :
    ∀ a ∈ [1, 2, 3, 4, 5, 8, 0x0F, 0x10, 0x25], (inReset (.read a)).busy = true ∧ (inReset (.read a)).inputs = ⟨some 0, .read a⟩ :: [] := by
  decide
/-- Each of the three ways: an idle block at any time, a busy one between two primitives, a stuck one at once. -/
theorem witness_ResetPutsEveryRegisterBack :
    ((idle .reset).inputs = ⟨none, .reset⟩ :: [] ∧ (idle .reset).busy = false) ∧
    ((during 3 .reset).inputs = ⟨some 3, .reset⟩ :: [] ∧ (during 3 .reset).busy = false) ∧
    (inReset .reset).inputs = ⟨some 0, .reset⟩ :: [] ∧
    (({ wedged true with busy := true, hung := true, inputs := [⟨some 3, .reset⟩] } : State).hung = true ∧ some 3 ≠ (none : Option Nat)) := by
  decide

/-- The reset lands before the first primitive, and before the last. -/
theorem witness_ResetDuringAnOperationAbandonsIt :
    State.reset.lineUsable = true ∧ (during 7 .reset).inputs = ⟨some 7, .reset⟩ :: [] ∧
    0 < (progOf Cfg.default .owrst).length ∧ 7 < (progOf Cfg.default .owrst).length := by decide

theorem witness_OwwbitSendsOneWriteSlot : BitVec.extractLsb' 1 7 (0x80 : Byte) ≠ 0 := by decide
theorem witness_BrevTwiceGivesTheByteBack :
    State.reset.quiet = true ∧ ∃ t u, exec (.brev 0x12) State.reset = .next t ∧ exec (.brev t.rdata) t = .next u :=
  ⟨rfl, _, _, rfl, rfl⟩
theorem witness_LoopbackReturnsTheByte :
    State.reset.quiet = true ∧ State.reset.cfg.wf = true ∧ State.reset.held = false ∧ State.reset.lineUsable = true ∧
    ∃ t, exec (.owwbyte 0xBE) State.reset = .next t :=
  ⟨rfl, by decide, rfl, rfl, _, rfl⟩

/-- For the statements about what a finished operation did: each kind of operation answers a next state. -/
theorem witness_finished_operations :
    State.reset.quiet = true ∧ State.reset.lineUsable = true ∧ State.reset.cfg.wf = true ∧ noReset State.reset.inputs = true ∧
    State.reset.cfg.wedgeHangs = false ∧
    (∃ t, exec .owrst State.reset = .next t) ∧ (∃ t, exec (.owwbyte 0xCC) State.reset = .next t) ∧
    (∃ t, exec .cvt1 State.reset = .next t) ∧ (∃ t, exec .dput State.reset = .next t) :=
  ⟨rfl, rfl, by decide, rfl, rfl, ⟨_, rfl⟩, ⟨_, rfl⟩, ⟨_, rfl⟩, ⟨_, rfl⟩⟩
/-- A held line, and a line that reads low by the environment's answer; and a stuck block in which a device lets go. -/
theorem witness_WedgedLineHangsWhereConfigured :
    isBusOp .owrst = true ∧ isBusOp .owrbyte = true ∧ (wedged true).quiet = true ∧ (wedged true).cfg.wedgeHangs = true ∧
    (wedged true).envLevel = false ∧ ({ wedged true with held := false, levels := [false] } : State).envLevel = false ∧
    (wedged true).inputs = [] ∧
    ∃ t, step { wedged true with busy := true, hung := true, opc := 1, inputs := [⟨some 5, .hold false⟩] } = .next t ∧
      noReset (landed { wedged true with busy := true, hung := true, opc := 1, inputs := [⟨some 5, .hold false⟩] } t) = true :=
  ⟨rfl, rfl, rfl, rfl, rfl, rfl, rfl, _, rfl, rfl⟩

/-- Inputs at, before and after the first `DriveLow()` of a byte operation. -/
theorem witness_TheLineAtTheFirstDriveLowDecides :
    isBusOp (.owwbyte 0) = true ∧ (wedged true).cfg.wedgeHangs = true ∧ firstDrive (.owwbyte 0) = 1 ∧ firstDrive .owrst = 0 ∧
    State.quiet { wedged true with inputs := [] } = true ∧
    ∀ n ∈ [0, 1, 2], ({ wedged true with inputs := [⟨some n, .hold false⟩] } : State).inputs = ⟨some n, .hold false⟩ :: [] := by
  decide

/-- A magnitude that does not overflow, without a sign (the first significant digit at position 0) and with one (at position 2). -/
theorem witness_EncShowsTheDecimalDigits :
    State.reset.quiet = true ∧ ¬ State.reset.overflows ∧ ¬ ({ State.reset with mag := 205, fmt := 0x81 } : State).overflows := by
  refine ⟨rfl, fun h => ?_, fun h => ?_⟩
  · rcases h with h | ⟨h, _⟩ <;> exact absurd h (by decide)
  · rcases h with h | ⟨_, _, h, _⟩
    · exact absurd h (by decide)
    · exact h.elim (by decide) fun h => h ⟨by decide, .inr (by decide)⟩

/-- Nine digits overflow; and the two states of the last clauses. -/
theorem witness_EncOverflowIsAsWritten :
    ({ State.reset with mag := 100000000 } : State).overflows ∧ sgnOf 0x86 = true ∧ dpOf 0x86 ≠ 7 ∧ sgnOf 0x87 = true ∧ dpOf 0x87 = 7 ∧
    sgnOf 0x07 = false ∧ Cfg.default.blankDpZero = false ∧ 10000000 ≤ (10000000 : Word).toNat ∧ (9999999 : Word).toNat < 10000000 :=
  ⟨.inl (by decide), by decide⟩
theorem witness_EncAfterAConversionNeverOverflows :
    ∃ t u, exec .cvt2 State.reset = .next t ∧ exec .enc t = .next u := ⟨_, _, rfl, rfl⟩

/-- A command, with a reset waiting behind it. -/
def beforeReset : State := { State.reset with inputs := [⟨none, .write 0 0x0A00⟩, ⟨none, .reset⟩] }

/-- Steps that answer a next state and in which no reset lands: from an idle block with nothing to come, and into an operation that runs
before the reset in the queue. -/
theorem witness_steps :
    (∃ t, step State.reset = .next t ∧ noReset (landed State.reset t) = true) ∧
    (∃ t, step beforeReset = .next t ∧ noReset (landed beforeReset t) = true) ∧ noReset beforeReset.inputs = false ∧
    (∃ t, step (inReset (.read 1)) = .next t ∧ noReset (landed (inReset (.read 1)) t) = true) :=
  ⟨⟨_, rfl, rfl⟩, ⟨_, rfl, rfl⟩, rfl, ⟨_, rfl, rfl⟩⟩

/-- An operation with a reset in the queue that does not land in it. -/
theorem witness_RegistersChangeOnlyByTheirCommands :
    ∃ t, exec (.brev 1) { State.reset with inputs := [⟨none, .reset⟩] } = .next t ∧
      noReset (landed { State.reset with inputs := [⟨none, .reset⟩] } t) = true := ⟨_, rfl, rfl⟩

/-- A write and a read that land while the operation runs. -/
def disturbed : State := { State.reset with inputs := [⟨some 2, .write 3 1⟩, ⟨some 0, .read 1⟩] }
theorem witness_HostAccessesDoNotDisturbAnOperation :
    (∀ e ∈ disturbed.inputs, isHostAccess e.input = true) ∧ (∃ t, exec .owrst disturbed = .next t) ∧
    (∃ u, exec .owrst { disturbed with inputs := [] } = .next u) ∧
    after (exec .owrst disturbed) (fun t => (t.cerr, t.got.length, t.inputs)) = some (true, 1, []) :=
  ⟨by decide, ⟨_, rfl⟩, ⟨_, rfl⟩, rfl⟩
/-- A polite command during which a device seizes the line, and a reset after it. -/
def polite : State := { State.reset with inputs := [⟨none, .write 0 0x0100⟩, ⟨some 3, .hold true⟩, ⟨none, .reset⟩] }
theorem witness_PoliteHostSeesNoAccessFault :
    (∀ e ∈ polite.inputs, politeArrival e = true) ∧ (∃ t, step polite = .next t) ∧
    after (step polite) (fun t => (t.held, t.pres, t.inputs)) = some (true, true, [⟨none, .reset⟩]) :=
  ⟨by decide, ⟨_, rfl⟩, rfl⟩
theorem witness_EnvironmentCannotSetAFaultFlag :
    State.reset.cfg.wedgeHangs = false ∧ (∃ t, exec .owrbyte State.reset = .next t) ∧
    (∃ u, exec .owrbyte { State.reset with levels := [true], held := true } = .next u) := ⟨rfl, ⟨_, rfl⟩, ⟨_, rfl⟩⟩

/-- A state in the middle of `OWRST`, the line driven low, meets the invariant. -/
theorem witness_invariant_while_busy : (inReset (.read 1)).Inv ∧ (inReset (.read 1)).busy = true :=
  ⟨⟨by decide, by decide, fun h => absurd h (by decide), fun _ => ⟨⟨by decide, rfl, rfl⟩, .inl rfl⟩⟩, rfl⟩

/-- An idle state with a usable line meets the invariant; and a well-formed bus command. -/
theorem witness_invariant_while_idle :
    Instr.wf (.owwbit 1) = true ∧ (idle (.write 0 0x0A00)).Inv ∧ (idle (.write 0 0x0A00)).busy = false ∧ (idle (.write 0 0x0A00)).lineUsable = true :=
  ⟨by decide, ⟨by decide, by decide, fun _ => ⟨rfl, rfl, rfl⟩, fun h => absurd h (by decide)⟩, rfl, rfl⟩

/-- A stuck block meets the invariant, and its step is the fault. -/
def stuckState : State := { wedged true with busy := true, hung := true, opc := 1 }
theorem witness_OnlyTheWedgeStopsTheMachine : stuckState.Inv ∧ step stuckState = .fault .busWedged :=
  ⟨⟨by decide, by decide, fun h => absurd h (by decide), fun _ => ⟨⟨by decide, rfl, rfl⟩, .inr ⟨rfl, rfl, rfl⟩⟩⟩, rfl⟩

end Sys2Proof.Tests
end

namespace Sys2Proof.Machine

/-! ## The invariant -/

/-- The running operation is that of the command whose fields `OPC` and `IMM` hold (R41, R82). -/
theorem program_of_fields {s : State} {i : Instr} (hi : i.wf = true) (ho : s.opc = opcOf i) (hm : s.imm = immOf i) :
    s.program = progOf s.cfg i := by
  simp [State.program, ho, hm, decodeFields_of i hi]

/-- A sequencer that has run `done` and whose next primitive is `p` is in the middle of the operation, at `p`. -/
theorem midOperation_of_split {s : State} {i : Instr} {done ps : List Prim} {p : Prim} (hi : i.wf = true) (ho : s.opc = opcOf i)
    (hm : s.imm = immOf i) (hsplit : done ++ p :: ps = progOf s.cfg i) (hs : s.stp = done.length)
    (hd : s.drv = drvAfter done false) (hn : s.bitcnt = cntAfter done 0) :
    s.midOperation ∧ s.program[s.stp]? = some p := by
  have hprog : s.program = done ++ p :: ps := by rw [program_of_fields hi ho hm, hsplit]
  exact ⟨⟨by simp [hprog, hs], by simpa [hprog, hs] using hd, by simpa [hprog, hs] using hn⟩, by simp [hprog, hs]⟩

/-- `Between` two primitives of a well-formed command the invariant holds. -/
theorem inv_of_between {c : Cfg} {i : Instr} {done ps : List Prim} {p : Prim} {s : State} (hc : c.wf = true) (hi : i.wf = true)
    (hsplit : done ++ p :: ps = progOf c i) (h : Between c i done s) : s.Inv := by
  obtain ⟨rfl, hfmt, hhung, ⟨hb, hrest⟩ | ⟨hb, ho, hm, hs, hd, hn⟩⟩ := h
  · exact ⟨hc, hfmt, fun _ => hrest, fun hb' => by simp [hb] at hb'⟩
  · exact ⟨hc, hfmt, fun hb' => by simp [hb] at hb', fun _ => ⟨(midOperation_of_split hi ho hm hsplit hs hd hn).1, .inl hhung⟩⟩

/-- The invariant of a busy block that is not stuck and stands at `p` says that `p` is the next
primitive of some well-formed command, all before it having run. -/
theorem between_of_inv {s : State} (h : s.Inv) (hb : s.busy = true) (hh : s.hung = false) {p : Prim}
    (hp : s.program[s.stp]? = some p) :
    ∃ i done ps, i.wf = true ∧ done ++ p :: ps = progOf s.cfg i ∧ Between s.cfg i done s := by
  obtain ⟨-, hfmt, -, hmid⟩ := h
  obtain ⟨⟨hlt, hd, hn⟩, -⟩ := hmid hb
  have hget : s.program[s.stp] = p := by simpa [List.getElem?_eq_getElem hlt] using hp
  cases hdec : decodeFields s.opc s.imm with
  | error e => simp [State.program, hdec] at hlt
  | ok i =>
    obtain ⟨hi, ho, hm⟩ := decodeFields_ok hdec
    refine ⟨i, s.program.take s.stp, s.program.drop (s.stp + 1), hi, ?_,
      rfl, hfmt, hh, .inr ⟨hb, ho.symm, hm.symm, (List.length_take_of_le hlt.le).symm, hd, hn⟩⟩
    rw [← hget, ← List.drop_eq_getElem_cons hlt, List.take_append_drop]
    exact program_of_fields hi ho.symm hm.symm

/-- In an operation `finish` is the primitive after which none is left, and no other. -/
theorem eq_finish_iff_last {c : Cfg} {i : Instr} {done ps : List Prim} {p : Prim} (hsplit : done ++ p :: ps = progOf c i) :
    p = .finish ↔ ps = [] := by
  obtain ⟨body, hbody, hnot⟩ := progOf_finish c i
  rw [hbody] at hsplit
  rcases List.eq_nil_or_concat ps with rfl | ⟨init, last, rfl⟩
  · have := List.append_inj_right' hsplit rfl
    simpa using this
  · have hd : done ++ p :: init = body := by
      apply List.append_inj_left' (t₁ := [last]) (t₂ := [.finish]) _ rfl
      simpa using hsplit
    simp only [List.concat_eq_append, List.append_eq_nil_iff, List.cons_ne_self, and_false, iff_false]
    rintro rfl
    exact hnot (by simp [← hd])

theorem progOf_ne_nil (c : Cfg) (i : Instr) : progOf c i ≠ [] := by
  obtain ⟨body, hbody, -⟩ := progOf_finish c i
  simp [hbody]

/-- The next primitive of an operation keeps the invariant, and where the operation does not go on (R42) the sequencer is stuck (R133) or
the block is idle (R39, R40). -/
theorem primStep_inv {c : Cfg} {i : Instr} {done ps : List Prim} {p : Prim} {s : State} (hc : c.wf = true) (hi : i.wf = true)
    (hsplit : done ++ p :: ps = progOf c i) (h : Between c i done s) (hb : s.busy = true) :
    (primStep p s).Inv ∧
      (Between c i (done ++ [p]) (primStep p s) ∨ (primStep p s).hung = true ∨ (primStep p s).busy = false) := by
  rcases Bool.eq_false_or_eq_true (s.sticks p) with hs | hs
  · obtain ⟨rfl, hw, hh, hb', rfl, hfmt, ho, hm, hstp, hd, hn⟩ := between_stuck h hb hs
    obtain ⟨hmid, hat⟩ := midOperation_of_split hi ho hm hsplit hstp hd hn
    exact ⟨⟨hc, hfmt, fun hf => by simp [hb'] at hf, fun _ => ⟨hmid, .inr ⟨hh, hw, hat⟩⟩⟩, .inr (.inl hh)⟩
  · cases ps with
    | nil =>
      obtain rfl := (eq_finish_iff_last hsplit).2 rfl
      obtain ⟨hb', hrest, hfmt⟩ := between_finish h hb hsplit.symm
      exact ⟨⟨by rw [primStep_cfg, h.1]; exact hc, hfmt, fun _ => hrest, fun hf => by simp [hb'] at hf⟩, .inr (.inr hb')⟩
    | cons q qs =>
      have hne : p ≠ .finish := fun hp => by simpa using (eq_finish_iff_last hsplit).1 hp
      have hnext := between_prim h hb hne hs
      exact ⟨inv_of_between hc hi (by simpa using hsplit) hnext, .inl hnext⟩

/-- A sequencer between two primitives is not stuck. -/
theorem Between.not_hung {c : Cfg} {i : Instr} {done : List Prim} {s : State} (h : Between c i done s) : s.hung = false := by
  obtain ⟨-, -, hfree, -⟩ := h
  exact hfree

/-- Inputs that land between two primitives leave the block between them, or a reset has ended the operation (R174, R192). -/
theorem between_landDue {c : Cfg} {i : Instr} {done : List Prim} {s : State} (h : Between c i done s) :
    Between c i done (landDue s.inputs s) :=
  landDue_induction (fun _ e rest hu hb _ _ => between_accept hu hb e.input rest) s.inputs s rfl h

/-- A stuck sequencer and an idle block run nothing (R133). -/
theorem runPrims_stopped {s : State} (h : s.hung = true ∨ s.busy = false) (ps : List Prim) : runPrims ps s = s :=
  h.elim (runPrims_hung · ps) (runPrims_idle · ps)

/-- Running the rest of an operation keeps the invariant, whatever lands meanwhile. -/
theorem runPrims_inv {c : Cfg} {i : Instr} (hc : c.wf = true) (hi : i.wf = true) (ps : List Prim) :
    ∀ (done : List Prim) (s : State), done ++ ps = progOf c i → Between c i done s → s.Inv → (runPrims ps s).Inv := by
  induction ps with
  | nil => intro _ _ _ _ hinv; exact hinv
  | cons p ps ih =>
    intro done s hsplit h _
    have hland := between_landDue h
    rw [runPrims_cons h.not_hung]
    split
    · next hb =>
      obtain ⟨hinv, hnext | hstop⟩ := primStep_inv hc hi hsplit hland hb
      · exact ih (done ++ [p]) _ (by simpa using hsplit) hnext hinv
      · rwa [runPrims_stopped hstop]
    · exact inv_of_between hc hi hsplit hland

/-- An accepted command stands before its first primitive (R61). -/
theorem between_started {s : State} (h : s.Inv) (hb : s.busy = false) (i : Instr) : Between s.cfg i [] (s.started i) := by
  obtain ⟨-, hfmt, hrest, -⟩ := h
  obtain ⟨hd, hn, -⟩ := hrest hb
  exact ⟨rfl, hfmt, rfl, .inr ⟨rfl, rfl, rfl, rfl, hd, hn⟩⟩

/-- A whole operation keeps the invariant, whatever lands in it. -/
theorem exec_inv {i : Instr} {s t : State} (hi : i.wf = true) (h : s.Inv) (hb : s.busy = false) (he : exec i s = .next t) : t.Inv := by
  rw [exec_eq] at he
  cases he
  obtain ⟨p, ps, hp⟩ := List.exists_cons_of_ne_nil (progOf_ne_nil s.cfg i)
  have hstart := between_started h hb i
  exact runPrims_inv h.1 hi _ [] _ rfl hstart (inv_of_between h.1 hi hp.symm hstart)

/-- The block's reset establishes the rest of the invariant from the configuration's part (R190). -/
theorem resetBlock_inv {s : State} (hc : s.cfg.wf = true) : s.resetBlock.Inv :=
  ⟨hc, show (0 : Byte) &&& 0x78 = 0 by decide, fun _ => ⟨rfl, rfl, rfl⟩, fun hb => by cases hb⟩

/-- A data write keeps `FMT`'s reserved bits 0 (R34, R64) and leaves the sequencer alone. -/
theorem writeData_inv {s : State} (h : s.Inv) (a : Nat) (v : Word) : (s.writeData a v).Inv := by
  unfold State.writeData
  split
  · exact h
  · split
    · exact h
    · split
      · obtain ⟨hc, -, hrest, hmid⟩ := h
        exact ⟨hc, fmtValue_reserved _ _, hrest, hmid⟩
      · exact h

/-- A host write that starts nothing keeps the invariant (R62, R64, R92). -/
theorem hostWrite_inv {s : State} (h : s.Inv) (a : Nat) (v : Word) : (s.hostWrite a v).Inv := by
  unfold State.hostWrite
  split
  · exact h
  · split
    · split <;> exact h
    · exact writeData_inv h a v

/-- No input that starts no operation breaks the invariant, on an idle, a busy or a stuck block. -/
theorem accept_inv {s : State} (h : s.Inv) (x : Input) : (s.accept x).Inv := by
  cases x with
  | write a v => exact hostWrite_inv h a v
  | read a => exact h
  | reset => exact resetBlock_inv h.1
  | hold low => exact h
  | delay ms => exact h

/-- A command the host has written is well formed (R82, R90). -/
theorem wf_of_commandOf {x : Input} {i : Instr} (h : commandOf x = some i) : i.wf = true := by
  obtain ⟨v, -, hd⟩ := commandOf_some h
  rw [decode_of_mbz _ (mbz_of_decode hd)] at hd
  exact (decodeFields_ok hd).1

/-- Settles O46, by cases on what the step is: nothing, a whole operation, an input landing, or one primitive. -/
theorem everyStepKeepsTheInvariant : Obligations.EveryStepKeepsTheInvariant := by
  intro s t h hstep
  rcases step_cases hstep with
    ⟨_, _, rfl⟩ | ⟨hb, e, rest, i, _, hcmd, he⟩ | ⟨_, e, rest, _, _, rfl⟩ | ⟨_, e, rest, _, _, rfl⟩ | ⟨hb, _, hh, p, hp, rfl⟩
  · exact h
  · exact exec_inv (s := { s with inputs := rest }) (wf_of_commandOf hcmd) h hb he
  · exact accept_inv (s := { s with inputs := rest }) h e.input
  · exact accept_inv (s := { s with inputs := rest }) h e.input
  · obtain ⟨i, done, ps, hi, hsplit, hbt⟩ := between_of_inv h hb hh hp
    exact (primStep_inv h.1 hi hsplit hbt hb).1

end Sys2Proof.Machine

namespace Sys2Proof.Machine

/-! ## Which operation writes which register -/

/-- Each register of R23's table but `RAW` and `ILL` has its own primitives, and no other one writes it. -/
theorem execPrim_registers (p : Prim) (s : State) :
    (p ≠ .latchPres → (execPrim p s).pres = s.pres) ∧ (p ≠ .latchRbit → (execPrim p s).rbit = s.rbit) ∧
    (p ≠ .latchRdata → p ≠ .reverse → (execPrim p s).rdata = s.rdata) ∧
    (p ≠ .convert1 → p ≠ .convert2 → (execPrim p s).mag = s.mag ∧ (execPrim p s).fmt = s.fmt) ∧
    (p ≠ .encode → (execPrim p s).seq = s.seq ∧ (execPrim p s).ovf = s.ovf) := by
  cases p with
  | encode => simp only [execPrim, State.encodeGlyphs]; split <;> simp
  | _ => simp [execPrim, State.convert1, State.convert2]

/-- From `s` to `u` only those registers have changed that R23 and R43 let an operation of `i` write. -/
structure KeepsRegistersNotOf (i : Instr) (s u : State) : Prop where
  pres    : i ≠ .owrst → u.pres = s.pres
  rbit    : i ≠ .owrbit → u.rbit = s.rbit
  rdata   : i ≠ .owrbyte → (∀ x, i ≠ .brev x) → u.rdata = s.rdata
  raw     : u.raw = s.raw
  mag_fmt : i ≠ .cvt1 → i ≠ .cvt2 → u.mag = s.mag ∧ u.fmt = s.fmt
  seq_ovf : i ≠ .enc → u.seq = s.seq ∧ u.ovf = s.ovf
  ill     : u.ill = s.ill

theorem KeepsRegistersNotOf.trans {i : Instr} {s u v : State} (h : KeepsRegistersNotOf i s u) (h' : KeepsRegistersNotOf i u v) :
    KeepsRegistersNotOf i s v where
  pres hi := (h'.pres hi).trans (h.pres hi)
  rbit hi := (h'.rbit hi).trans (h.rbit hi)
  rdata hi hx := (h'.rdata hi hx).trans (h.rdata hi hx)
  raw := h'.raw.trans h.raw
  mag_fmt h1 h2 := ⟨(h'.mag_fmt h1 h2).1.trans (h.mag_fmt h1 h2).1, (h'.mag_fmt h1 h2).2.trans (h.mag_fmt h1 h2).2⟩
  seq_ovf hi := ⟨(h'.seq_ovf hi).1.trans (h.seq_ovf hi).1, (h'.seq_ovf hi).2.trans (h.seq_ovf hi).2⟩
  ill := h'.ill.trans h.ill

/-- Where none of these registers has changed, none has that should not. -/
theorem KeepsRegistersNotOf.of_eq {i : Instr} {s u : State}
    (h : (u.pres, u.rbit, u.rdata, u.raw, u.mag, u.fmt, u.seq, u.ovf, u.ill) =
      (s.pres, s.rbit, s.rdata, s.raw, s.mag, s.fmt, s.seq, s.ovf, s.ill)) : KeepsRegistersNotOf i s u := by
  simp only [Prod.mk.injEq] at h
  obtain ⟨hpres, hrbit, hrdata, hraw, hmag, hfmt, hseq, hovf, hill⟩ := h
  exact ⟨fun _ => hpres, fun _ => hrbit, fun _ _ => hrdata, hraw, fun _ _ => ⟨hmag, hfmt⟩, fun _ => ⟨hseq, hovf⟩, hill⟩

/-- Acceptance writes only the sequencer's own registers (R61). -/
theorem started_keepsRegisters (i : Instr) (s : State) : KeepsRegistersNotOf i s (s.started i) := .of_eq rfl

/-- An input that lands in an operation and is no reset writes `CERR` at most (R62). -/
theorem accept_keepsRegisters (i : Instr) {s : State} (hb : s.busy = true) {x : Input} (hx : x ≠ .reset) (rest : List Arrival) :
    KeepsRegistersNotOf i s (({ s with inputs := rest } : State).accept x) := by
  rcases accept_busy (s := { s with inputs := rest }) hb x with
    ⟨_, _, _, he⟩ | ⟨_, _, he⟩ | ⟨hr, _⟩ | ⟨_, _, he⟩ | ⟨_, _, he⟩
  case inr.inr.inl => exact absurd hr hx
  all_goals rw [he]; exact .of_eq rfl

/-- The effect of a primitive of `i` stays within the registers of `i`. -/
theorem execPrim_keepsRegisters {c : Cfg} {i : Instr} {p : Prim} (hp : p ∈ progOf c i) (s : State) :
    KeepsRegistersNotOf i s (execPrim p s) := by
  obtain ⟨hpres, hrbit, hrdata, hrev, hcvt1, hcvt2, henc⟩ := progOf_owner c i p hp
  obtain ⟨kpres, krbit, krdata, kmag, kseq⟩ := execPrim_registers p s
  exact {
    pres := fun hi => kpres (mt hpres hi)
    rbit := fun hi => krbit (mt hrbit hi)
    rdata := fun hi hx => krdata (mt hrdata hi) (mt hrev (by simpa using hx))
    raw := execPrim_raw p s
    mag_fmt := fun h1 h2 => kmag (mt hcvt1 h1) (mt hcvt2 h2)
    seq_ovf := fun hi => kseq (mt henc hi)
    ill := execPrim_ill p s }

/-- So does the whole step of the sequencer, stuck or not (R133). -/
theorem primStep_keepsRegisters {c : Cfg} {i : Instr} {p : Prim} (hp : p ∈ progOf c i) (s : State) :
    KeepsRegistersNotOf i s (primStep p s) := by
  rcases primStep_cases p s with ⟨_, he⟩ | ⟨_, he⟩ <;> rw [he]
  · exact .of_eq rfl
  · obtain ⟨hpres, hrbit, hrdata, hraw, hmag, hseq, hill⟩ := execPrim_keepsRegisters hp s
    exact ⟨hpres, hrbit, hrdata, hraw, hmag, hseq, hill⟩

/-- Settles O38, by induction over the operation with the inputs that have landed in it. -/
theorem registersChangeOnlyByTheirCommands : Obligations.RegistersChangeOnlyByTheirCommands := by
  intro i s t he hr
  have hkeep : (∀ x ∈ (landed s t).map Arrival.input, x ≠ .reset) → KeepsRegistersNotOf i s t := by
    refine exec_landed_induction (P := fun l u => (∀ x ∈ l, x ≠ .reset) → KeepsRegistersNotOf i s u) he
      (fun _ => started_keepsRegisters i s) ?_ ?_
    · intro l u e rest ih hb _ _ hl
      exact (ih fun x hx => hl x (by simp [hx])).trans (accept_keepsRegisters i hb (hl e.input (by simp)) rest)
    · intro l u p hp ih _ _ hl
      exact (ih hl).trans (primStep_keepsRegisters hp u)
  obtain ⟨hpres, hrbit, hrdata, hraw, hmag, hseq, hill⟩ := hkeep ((noReset_iff _).1 hr)
  exact ⟨hpres, hrbit, hrdata, hraw, hmag, hseq, hill⟩

/-! ## One transition and primitive by primitive -/

/-- `t` is reached from `s` by steps of the machine. -/
def Reaches : State → State → Prop := Relation.ReflTransGen fun s t => step s = .next t

/-- What steps reach, a run of the machine reaches. -/
theorem Reaches.run {s t : State} (h : Reaches s t) : ∃ n, Host.Core.run Sys2Proof.core n s = .next t := by
  induction h using Relation.ReflTransGen.head_induction_on with
  | refl => exact ⟨0, rfl⟩
  | head hstep _ ih =>
    obtain ⟨n, hn⟩ := ih
    have hcore : Sys2Proof.core.step _ = .next _ := hstep
    exact ⟨n + 1, by simpa only [Host.Core.run, hcore] using hn⟩

/-- The primitives that the running operation has still to run (R42). -/
def State.remaining (s : State) : List Prim := s.program.drop s.stp

/-- What remains is a matter of four fields. -/
theorem remaining_congr {s t : State} (hc : t.cfg = s.cfg) (ho : t.opc = s.opc) (hm : t.imm = s.imm) (hs : t.stp = s.stp) :
    t.remaining = s.remaining := by
  simp [State.remaining, State.program, hc, ho, hm, hs]

/-- An accepted command has its whole operation to run (R61). -/
theorem started_remaining {i : Instr} (hi : i.wf = true) (s : State) : (s.started i).remaining = progOf s.cfg i :=
  program_of_fields (s := s.started i) hi rfl rfl

/-- An input that lands in an operation and does not end it leaves what remains of it (R174). -/
theorem accept_remaining {s : State} (hb : s.busy = true) (x : Input) (hb' : (s.accept x).busy = true) :
    (s.accept x).remaining = s.remaining := by
  rcases accept_busy hb x with ⟨_, _, _, he⟩ | ⟨_, _, he⟩ | ⟨_, he⟩ | ⟨_, _, he⟩ | ⟨_, _, he⟩ <;> rw [he] at hb' ⊢
  case inr.inr.inl => cases hb'
  all_goals exact remaining_congr rfl rfl rfl rfl

/-- The primitive at `STEP`, where some remain. -/
theorem program_at_stp {s : State} {p : Prim} {ps : List Prim} (h : s.remaining = p :: ps) : s.program[s.stp]? = some p := by
  rw [← List.head?_drop]
  exact congrArg List.head? h

/-- A primitive that has run is no longer among those that remain (R42). -/
theorem primStep_remaining {s : State} {p : Prim} {ps : List Prim} (h : s.remaining = p :: ps) (hs : s.sticks p = false) :
    (primStep p s).remaining = ps := by
  have hprog : (primStep p s).program = s.program := by simp [State.program, primStep_moves hs, advance]
  have hstp : (primStep p s).stp = s.stp + 1 := by simp [primStep_moves hs, advance]
  rw [State.remaining, hprog, hstp, ← List.tail_drop]
  exact congrArg List.tail h

/-- Every input that lands between two primitives in the one transition lands in a step of its own. -/
theorem landDue_reaches (s : State) : Reaches s (landDue s.inputs s) := by
  refine landDue_induction (P := Reaches s) (fun u e rest hu hb hi ha => hu.tail ?_) s.inputs s rfl .refl
  rw [step_busy hb, tick_due hi (by simp [State.due, ha])]

/-- An operation that the inputs between two primitives do not end goes on where it stood (R174). -/
theorem landDue_remaining (s : State) (hb : (landDue s.inputs s).busy = true) :
    (landDue s.inputs s).remaining = s.remaining :=
  landDue_induction (P := fun u => u.busy = true → u.remaining = s.remaining)
    (fun u e rest hu hub _ _ h => (accept_remaining (s := { u with inputs := rest }) hub e.input h).trans (hu hub))
    s.inputs s rfl (fun _ => rfl) hb

/-- Once the inputs that are due have landed and the operation goes on, none is due. -/
theorem landDue_noneDue (l : List Arrival) : ∀ s : State, s.inputs = l → s.hung = false → (landDue l s).busy = true →
    (landDue l s).noneDue := by
  induction l with
  | nil => intro s hl _ _; simp [State.noneDue, hl]
  | cons e rest ih =>
    intro s hl hh
    simp only [landDue]
    split
    · exact ih _ (accept_inputs _ _) (accept_not_hung (s := { s with inputs := rest }) hh _)
    · next hd =>
      intro hb
      have hne : e.after ≠ some 0 := fun ha => hd ⟨hb, ha⟩
      cases ha : e.after with
      | none => simp [State.noneDue, hl, State.due, ha]
      | some n =>
        have hn : n ≠ 0 := fun h => hne (by rw [ha, h])
        simp [State.noneDue, hl, State.due, ha, hh, hn]

/-- Steps of the sequencer and landing inputs run what remains of an operation (R42). -/
theorem runPrims_reaches (ps : List Prim) : ∀ s : State, s.remaining = ps → Reaches s (runPrims ps s) := by
  induction ps with
  | nil => intro s _; exact .refl
  | cons p ps ih =>
    intro s hrem
    rcases Bool.eq_false_or_eq_true s.hung with hh | hh
    · rw [runPrims_hung hh]; exact .refl
    · rw [runPrims_cons hh]
      split
      · next hb =>
        have hrem' := (landDue_remaining s hb).trans hrem
        have hstep : step (landDue s.inputs s) = .next (primStep p (landDue s.inputs s)) := by
          rw [step_busy hb, tick_prim (landDue_noneDue _ s rfl hh hb) (landDue_not_hung _ hh) (program_at_stp hrem')]
        refine ((landDue_reaches s).tail hstep).trans ?_
        rcases primStep_cases p (landDue s.inputs s) with ⟨_, hstuck⟩ | ⟨hs, _⟩
        · rw [runPrims_hung (by rw [hstuck])]
        · exact ih _ (primStep_remaining hrem' hs)
      · exact landDue_reaches s

/-- Settles O45, by induction over the primitives that remain. -/
theorem atomicAndStepwiseRunsAgree : Obligations.AtomicAndStepwiseRunsAgree := by
  intro i s t hi he
  rw [exec_eq] at he
  cases he
  exact (runPrims_reaches _ _ (started_remaining hi s)).run

/-! ## Reads while an operation runs -/

/-- A read that lands in a running operation takes one step and leaves the block alone (R30, R63). -/
theorem step_busyRead {s : State} {a : Nat} {rest : List Arrival} (hb : s.busy = true) (hi : s.inputs = ⟨some 0, .read a⟩ :: rest) :
    step s = .next { s with
      inputs := rest, got := s.got ++ [⟨a, s.regValueBusy a (Config.freeRead s.got.length)⟩] } := by
  rw [step_busy hb, tick_due hi rfl]
  exact congrArg _ (hostRead_of_busy (s := { s with inputs := rest }) hb a)

/-- The bits of `STATUS` that read true while an operation runs, and the hard-wired zeros (R25, R30). -/
theorem statusBitsBusy_getLsbD (s : State) (p r : Bool) :
    (s.statusBitsBusy p r).getLsbD 0 = s.busy ∧ (s.statusBitsBusy p r).getLsbD 3 = s.ovf ∧
    (s.statusBitsBusy p r).getLsbD 4 = s.ill ∧ (s.statusBitsBusy p r).getLsbD 5 = s.cerr ∧
    ∀ k, k < 8 → 6 ≤ k → (s.statusBitsBusy p r).getLsbD k = false := by
  simp only [State.statusBitsBusy]
  generalize s.cerr = c, s.ill = i, s.ovf = o, s.busy = b
  revert p r c i o b
  decide

/-- The same bits of what the host reads from `STATUS` while an operation runs, zero-extended (R30, R63). -/
theorem regValueBusy_status (s : State) (u : Word) :
    (s.regValueBusy 0x01 u).getLsbD 0 = s.busy ∧ (s.regValueBusy 0x01 u).getLsbD 3 = s.ovf ∧
    (s.regValueBusy 0x01 u).getLsbD 4 = s.ill ∧ (s.regValueBusy 0x01 u).getLsbD 5 = s.cerr ∧
    ∀ k, 6 ≤ k → (s.regValueBusy 0x01 u).getLsbD k = false := by
  have hv : s.regValueBusy 0x01 u = (s.statusBitsBusy (u.getLsbD 1) (u.getLsbD 2)).setWidth 32 := rfl
  obtain ⟨h0, h3, h4, h5, h67⟩ := statusBitsBusy_getLsbD s (u.getLsbD 1) (u.getLsbD 2)
  simp only [hv, BitVec.getLsbD_setWidth, h0, h3, h4, h5]
  refine ⟨by simp, by simp, by simp, by simp, fun k hk => ?_⟩
  rcases Nat.lt_or_ge k 8 with h8 | h8
  · rw [h67 k h8 hk, Bool.and_false]
  · rw [BitVec.getLsbD_of_ge _ _ h8, Bool.and_false]

/-- `RAW` reads true while an operation runs (R30). -/
theorem regValueBusy_raw (s : State) (u : Word) : s.regValueBusy 0x03 u = s.raw.setWidth 32 := rfl

/-- The glyph table reads true while an operation runs (R30, R36). -/
theorem regValueBusy_glyph (s : State) (k : Fin 22) (u : Word) : s.regValueBusy (0x10 + k.val) u = s.cfg.glyph[k].setWidth 32 := by
  have hk := k.isLt
  unfold State.regValueBusy State.regValue
  iterate 9 rw [if_neg (by omega)]
  rw [if_pos (by omega), Nat.add_sub_cancel_left, glyphAt_of_lt]

/-- `MAG` reads as the free value while an operation runs (R30). -/
theorem regValueBusy_mag (s : State) (u : Word) : s.regValueBusy 0x04 u = u := rfl

/-- `RDATA`, `FMT` and `SEQ` read as the free value while an operation runs, cut to their width (R30). -/
theorem regValueBusy_byte (s : State) {a : Nat} (ha : a = 0x02 ∨ a = 0x05 ∨ (0x08 ≤ a ∧ a ≤ 0x0F)) (u : Word) :
    s.regValueBusy a u = (u.setWidth 8).setWidth 32 := by
  have h1 : a ≠ 0x01 := by omega
  have h4 : a ≠ 0x04 := by omega
  simp [State.regValueBusy, h1, h4, ha]

/-- Settles O12, by the bits of `STATUS` and the values of `RAW` and the glyph table while busy. -/
theorem busyReadShowsTheTrueFlags : Obligations.BusyReadShowsTheTrueFlags := by
  intro s a rest hb hi
  refine ⟨_, step_busyRead hb hi, ?_, ?_, ?_⟩
  · rintro rfl
    rw [← hb]
    exact regValueBusy_status s _
  · rintro rfl
    rw [regValueBusy_raw]
    exact BitVec.toNat_setWidth_of_le (by decide)
  · rintro k rfl
    rw [regValueBusy_glyph]
    exact BitVec.toNat_setWidth_of_le (by decide)

/-- Settles O13, by the values of the result registers while busy. -/
theorem busyReadOfAResultIsTheFreeValue : Obligations.BusyReadOfAResultIsTheFreeValue := by
  intro s a rest hb hi
  refine ⟨_, step_busyRead hb hi, ?_, fun ha => ?_⟩
  · rintro rfl; rw [regValueBusy_mag]
  · rw [regValueBusy_byte s ha]

/-! ## The configuration and the fault flags -/

/-- Settles O41: no input and no primitive changes the configuration. -/
theorem configurationNeverChanges : Obligations.ConfigurationNeverChanges := by
  intro s t h
  exact step_landed_induction (P := fun _ u => u.cfg = s.cfg) h rfl
    (fun _ u e rest hu _ _ _ => by rw [accept_cfg]; exact hu)
    (fun _ u e rest i hu _ _ _ => hu)
    (fun _ u p hu _ _ => by rw [primStep_cfg]; exact hu)

/-- Every fault flag that is 1 in `s` is 1 in `u`. -/
def FlagsStay (s u : State) : Prop :=
  (s.ovf = true → u.ovf = true) ∧ (s.ill = true → u.ill = true) ∧ (s.cerr = true → u.cerr = true)

theorem FlagsStay.trans {s u v : State} (h : FlagsStay s u) (h' : FlagsStay u v) : FlagsStay s v :=
  ⟨h'.1 ∘ h.1, h'.2.1 ∘ h.2.1, h'.2.2 ∘ h.2.2⟩

/-- An input that is no reset clears no flag (R29). -/
theorem accept_flagsStay {x : Input} (hx : x ≠ .reset) (s : State) : FlagsStay s (s.accept x) := by
  obtain ⟨-, -, hovf, hill, hcerr⟩ := accept_noReset hx s
  exact ⟨fun h => hovf.trans h, hill, hcerr⟩

/-- A primitive clears no flag, stuck or not (R29, R133). -/
theorem primStep_flagsStay (p : Prim) (s : State) : FlagsStay s (primStep p s) := by
  obtain ⟨hill, hcerr, -⟩ := primStep_frame p s
  refine ⟨fun h => ?_, hill.trans, hcerr.trans⟩
  obtain ⟨-, -, hovf⟩ := execPrim_grow p s
  rcases primStep_cases p s with ⟨_, he⟩ | ⟨_, he⟩ <;> rw [he]
  · exact h
  · exact hovf h

/-- The fault flags steer no primitive, and whether the sequencer is stuck at it (R29, R133). -/
theorem primStep_flags (p : Prim) (s : State) (a b c : Bool) :
    ∃ o, primStep p { s with ovf := a, ill := b, cerr := c } = { primStep p s with ovf := o, ill := b, cerr := c } := by
  have hs : State.sticks p { s with ovf := a, ill := b, cerr := c } = s.sticks p := rfl
  rcases Bool.eq_false_or_eq_true (s.sticks p) with h | h
  · exact ⟨a, by unfold primStep; rw [if_pos (hs.trans h), if_pos h]; rfl⟩
  · obtain ⟨o, ho⟩ := execPrim_flags p s a b c
    exact ⟨o, by rw [primStep_moves (hs.trans h), primStep_moves h, advance, advance, ho]⟩

/-- A primitive leaves a quiet block quiet: it counts down no input that waits for `BUSY = 0`. -/
theorem primStep_keepsQuiet {s : State} (h : s.quiet = true) (p : Prim) : (primStep p s).quiet = true := by
  have hi : (primStep p s).inputs = s.inputs := by
    rcases primStep_cases p s with ⟨_, he⟩ | ⟨_, he⟩ <;> rw [he]
    · rfl
    · exact countDown_quiet h
  rw [quiet_congr hi, h]

/-- The fault flags steer no run in which nothing lands (R29). -/
theorem runPrims_flags (ps : List Prim) : ∀ (s : State) (a b c : Bool), s.quiet = true →
    ∃ o, runPrims ps { s with ovf := a, ill := b, cerr := c } = { runPrims ps s with ovf := o, ill := b, cerr := c } := by
  induction ps with
  | nil => intro s a b c _; exact ⟨a, rfl⟩
  | cons p ps ih =>
    intro s a b c hq
    rcases Bool.eq_false_or_eq_true s.hung with hh | hh
    · exact ⟨a, by rw [runPrims_hung hh, runPrims_hung (by exact hh)]⟩
    · have hq' : State.quiet { s with ovf := a, ill := b, cerr := c } = true := hq
      rw [runPrims_cons hh, runPrims_cons (by exact hh), landDue_quiet hq, landDue_quiet hq']
      rcases Bool.eq_false_or_eq_true s.busy with hb | hb
      · obtain ⟨o, ho⟩ := primStep_flags p s a b c
        obtain ⟨o', ho'⟩ := ih (primStep p s) o b c (primStep_keepsQuiet hq p)
        exact ⟨o', by rw [if_pos (by exact hb), if_pos hb, ho, ho']⟩
      · exact ⟨a, by rw [if_neg (by simp [hb]), if_neg (by simp [hb])]⟩

/-- Settles O39: by induction over the step with the inputs that have landed, and by that over a run in which nothing lands. -/
theorem faultFlagsStayAndSteerNothing : Obligations.FaultFlagsStayAndSteerNothing := by
  constructor
  · intro s t h hr
    refine step_landed_induction (P := fun l u => (∀ x ∈ l, x ≠ .reset) → FlagsStay s u) h
      (fun _ => ⟨id, id, id⟩) ?_ ?_ ?_ ((noReset_iff _).1 hr)
    · intro l u e rest ih _ _ _ hl
      exact (ih fun x hx => hl x (by simp [hx])).trans (accept_flagsStay (hl e.input (by simp)) { u with inputs := rest })
    · intro l u e rest i ih _ _ _ hl
      exact ih fun x hx => hl x (by simp [hx])
    · intro l u p ih _ _ hl
      exact (ih hl).trans (primStep_flagsStay p u)
  · intro i s t a b c hq he
    rw [exec_eq] at he
    cases he
    obtain ⟨o, ho⟩ := runPrims_flags (progOf s.cfg i) (s.started i) a b c hq
    exact ⟨o, by rw [exec_eq, ← ho]; rfl⟩

/-! ## `STATUS` while an operation runs -/

/-- An operation that uses no line issues no `DriveLow()` (R120). -/
theorem driveFirst_notMem_of_not_busOp {c : Cfg} {i : Instr} (h : isBusOp i = false) : .driveFirst ∉ progOf c i := by
  cases i <;> simp [isBusOp, progOf, brevProg, cvt1Prog, cvt2Prog, encProg, dputProg] at h ⊢

/-- What is left of an operation before any of its primitives ends with `finish`. -/
theorem finish_mem_drop {c : Cfg} {i : Instr} {n : Nat} (h : n < (progOf c i).length) : .finish ∈ (progOf c i).drop n := by
  obtain ⟨ps, hp, -⟩ := progOf_finish c i
  rw [hp] at h ⊢
  rw [List.drop_append_of_le_length (by simp at h; omega)]
  simp

/-- An operation in which nothing lands tells the host nothing (R63). -/
theorem runPrims_quiet_got (ps : List Prim) {s : State} (h : s.quiet = true) : (runPrims ps s).got = s.got := by
  have key : (runPrims ps s).quiet = true ∧ (runPrims ps s).got = s.got := by
    refine runPrims_induction (P := fun u => u.quiet = true ∧ u.got = s.got) ps ?_ ?_ s ⟨h, rfl⟩
    · rintro u e rest ⟨hq, _⟩ _ hi ha
      simp [State.quiet, hi, ha] at hq
    · rintro u p _ ⟨hq, hg⟩ _ _
      obtain ⟨-, -, -, -, hgot, -⟩ := primStep_frame p u
      exact ⟨primStep_keepsQuiet hq p, hgot.trans hg⟩
  exact key.2

/-- A run in which nothing lands and whose line is usable gets to its `finish` (R26, R133). -/
theorem runPrims_quiet_ends (ps : List Prim) : ∀ s : State, .finish ∈ ps → opensOnce ps →
    (s.lineUsable = true ∨ .driveFirst ∉ ps) → s.Running → (runPrims ps s).busy = false := by
  induction ps with
  | nil => intro s hf; simp at hf
  | cons p ps ih =>
    intro s hf ho hu hr
    obtain ⟨hs, ho', hu'⟩ := usable_next ho hu
    rw [runPrims_quiet_cons hr hs]
    by_cases hp : p = .finish
    · subst hp
      rw [runPrims_idle rfl]; rfl
    · exact ih _ (by simpa [Ne.symm hp] using hf) ho' (hu' (advance s p).inputs) (advance_running hr hp)

/-- An operation on a usable line into which an input lands before its primitive number `n` goes on from there (R62, R133, R174). -/
theorem exec_until {i : Instr} {s : State} {n : Nat} {x : Input} {rest : List Arrival} (hline : isBusOp i = true → s.lineUsable = true)
    (hi : s.inputs = ⟨some n, x⟩ :: rest) (hn : n < (progOf s.cfg i).length) :
    ∃ u : State, u.busy = true ∧ u.hung = false ∧ u.inputs = rest ∧ u.got = s.got ∧
      opensOnce ((progOf s.cfg i).drop n) ∧ (u.lineUsable = true ∨ .driveFirst ∉ (progOf s.cfg i).drop n) ∧
      exec i s = .next (runPrims ((progOf s.cfg i).drop n) (u.accept x)) := by
  have husable : (s.started i).lineUsable = true ∨ .driveFirst ∉ progOf s.cfg i := by
    rcases Bool.eq_false_or_eq_true (isBusOp i) with hbus | hbus
    · exact .inl (hline hbus)
    · exact .inr (driveFirst_notMem_of_not_busOp hbus)
  obtain ⟨u, hb, hh, hrest, -, hgot, hopen, huse, hrun⟩ := runPrims_until x rest (progOf s.cfg i) n (s.started i) hn
    (finish_notMem_take hn) (progOf_opensOnce s.cfg i) husable rfl rfl hi
  refine ⟨u, hb, hh, hrest, hgot, hopen, huse, ?_⟩
  rw [exec_eq, hrun]
  obtain ⟨p, ps, hp⟩ := List.exists_cons_of_ne_nil (List.ne_nil_of_mem (finish_mem_drop hn))
  rw [hp, runPrims_cons (accept_not_hung hh x), accept_inputs, hrest]
  rfl

/-- Settles O7: the read lands on a busy block, and what is left of the operation runs on alone to its end. -/
theorem statusShowsBusyWhileAnOperationRuns : Obligations.StatusShowsBusyWhileAnOperationRuns := by
  intro i s n rest hline hi hq hn
  obtain ⟨u, hb, hh, hrest, hgot, hopen, huse, he⟩ := exec_until hline hi hn
  have hread : (u.accept (.read 0x01)).Running := ⟨(quiet_congr hrest).trans hq, hb, hh⟩
  refine ⟨_, u.regValueBusy 0x01 (Config.freeRead u.got.length), he, ?_, ?_, ?_⟩
  · rw [← hgot, runPrims_quiet_got _ hread.quiet]
    exact congrArg State.got (hostRead_of_busy hb 0x01)
  · exact (regValueBusy_status u _).1.trans hb
  · exact runPrims_quiet_ends _ _ (finish_mem_drop hn) hopen huse hread

end Sys2Proof.Machine

namespace Sys2Proof.Machine

/-! ## The two traces -/

/-- The induction over one step in which no reset lands. -/
theorem step_noReset_induction {P : State → Prop} {s t : State} (h : step s = .next t) (hr : noReset (landed s t) = true) (h0 : P s)
    (land : ∀ u e rest, P u → u.inputs = e :: rest → e.input ≠ .reset → P (({ u with inputs := rest } : State).accept e.input))
    (start : ∀ u e rest i, P u → u.inputs = e :: rest → commandOf e.input = some i →
      P (({ u with inputs := rest } : State).started i))
    (prim : ∀ u p, P u → P (primStep p u)) : P t := by
  refine step_landed_induction (P := fun l u => (∀ x ∈ l, x ≠ .reset) → P u) h (fun _ => h0) ?_ ?_ ?_ ((noReset_iff _).1 hr)
  · intro l u e rest ih hi _ _ hl
    exact land u e rest (ih fun x hx => hl x (by simp [hx])) hi (hl e.input (by simp))
  · intro l u e rest i ih _ hi hc hl
    exact start u e rest i (ih fun x hx => hl x (by simp [hx])) hi hc
  · intro l u p ih _ _ hl
    exact prim u p (ih hl)

/-- Both traces of `u` continue those of `s`. -/
def TracesGrow (s u : State) : Prop := s.lt <+: u.lt ∧ s.sink <+: u.sink

theorem TracesGrow.trans {s u v : State} (h : TracesGrow s u) (h' : TracesGrow u v) : TracesGrow s v :=
  ⟨h.1.trans h'.1, h.2.trans h'.2⟩

theorem TracesGrow.of_eq {s u : State} (hlt : u.lt = s.lt) (hsink : u.sink = s.sink) : TracesGrow s u :=
  ⟨by rw [hlt], by rw [hsink]⟩

/-- An input that is no reset leaves both traces alone (R75, R100). -/
theorem accept_tracesGrow {x : Input} (hx : x ≠ .reset) (s : State) : TracesGrow s (s.accept x) := by
  obtain ⟨hlt, hsink, -⟩ := accept_noReset hx s
  exact .of_eq hlt hsink

/-- A primitive takes no event out of a trace, stuck or not (R75, R100, R133). -/
theorem primStep_tracesGrow (p : Prim) (s : State) : TracesGrow s (primStep p s) := by
  rcases primStep_cases p s with ⟨_, he⟩ | ⟨_, he⟩ <;> rw [he]
  · exact .of_eq rfl rfl
  · obtain ⟨hlt, hsink, -⟩ := execPrim_grow p s
    exact ⟨hlt, hsink⟩

/-- Settles O40: by induction over the step, whose inputs leave the traces alone and whose primitives append to them. -/
theorem tracesOnlyGrow : Obligations.TracesOnlyGrow := by
  intro s t h hr
  exact step_noReset_induction (P := TracesGrow s) h hr (.of_eq rfl rfl)
    (fun u e rest hu _ hx => hu.trans (accept_tracesGrow hx { u with inputs := rest }))
    (fun _ _ _ _ hu _ _ => hu)
    (fun u p hu => hu.trans (primStep_tracesGrow p u))

/-! ## Host accesses to an idle block -/

/-- A write to any number but that of `CMD` is no command (R61). -/
theorem commandOf_data {a : Nat} (ha : a ≠ 0x00) (v : Word) : commandOf (.write a v) = none := by simp [commandOf, ha]

/-- A legal word written to `CMD` runs its command in one step (R61). -/
theorem step_idleLegalWord {s : State} {after : Option Nat} {v : Word} {rest : List Arrival} {i : Instr} (hb : s.busy = false)
    (hi : s.inputs = ⟨after, .write 0x00 v⟩ :: rest) (hd : decode (cmdWord v) = .ok i) :
    step s = exec i { s with inputs := rest } :=
  step_idle_command hb hi (by simp [commandOf, hd])

/-- An illegal word written to `CMD` raises `ILL` and does nothing else (R92). -/
theorem step_idleIllegalWord {s : State} {after : Option Nat} {v : Word} {rest : List Arrival} {e : DecodeError} (hb : s.busy = false)
    (hi : s.inputs = ⟨after, .write 0x00 v⟩ :: rest) (hd : decode (cmdWord v) = .error e) :
    step s = .next { s with inputs := rest, ill := true } := by
  rw [step_idle_settled hb hi (by simp [commandOf, hd])]
  simp [State.accept, State.hostWrite, hb, hd, State.raise]

/-- A write to any other number takes one step, as `writeData` has it (R64). -/
theorem step_idleDataWrite {s : State} {after : Option Nat} {a : Nat} {v : Word} {rest : List Arrival} (hb : s.busy = false)
    (hi : s.inputs = ⟨after, .write a v⟩ :: rest) (ha : a ≠ 0x00) :
    step s = .next (({ s with inputs := rest } : State).writeData a v) := by
  rw [step_idle_settled hb hi (commandOf_data ha v)]
  simp [State.accept, State.hostWrite, hb, ha]

theorem writeData_raw (s : State) (v : Word) : s.writeData 0x03 v = { s with raw := v.setWidth 16 } := rfl

theorem writeData_mag (s : State) (v : Word) : s.writeData 0x04 v = { s with mag := v } := rfl

theorem writeData_fmt (s : State) (v : Word) :
    s.writeData 0x05 v = { s with fmt := fmtValue (v.getLsbD 7) (v.extractLsb' 0 3) } := rfl

/-- A number that names none of `RAW`, `MAG` and `FMT` takes nothing (R64). -/
theorem writeData_other {a : Nat} (h3 : a ≠ 0x03) (h4 : a ≠ 0x04) (h5 : a ≠ 0x05) (s : State) (v : Word) : s.writeData a v = s := by
  simp [State.writeData, h3, h4, h5]

/-- `FMT` takes bits 7 and 2:0 of the value written; the others are hard-wired to 0 (R34, R64). -/
theorem fmtValue_written_getLsbD (v : Word) {k : Nat} (hk : k < 8) :
    (fmtValue (v.getLsbD 7) (v.extractLsb' 0 3)).getLsbD k = (v.getLsbD k && decide (k = 7 ∨ k < 3)) := by
  rw [fmtValue_getLsbD _ _ k hk]
  by_cases h3 : k < 3
  · simp [h3]
  · by_cases h7 : k = 7
    · simp [h7]
    · simp [h3, h7]

/-- A read of an idle block takes one step and leaves the block alone (R63). -/
theorem step_idleRead {s : State} {after : Option Nat} {a : Nat} {rest : List Arrival} (hb : s.busy = false)
    (hi : s.inputs = ⟨after, .read a⟩ :: rest) :
    step s = .next { s with inputs := rest, got := s.got ++ [⟨a, s.regValue a⟩] } := by
  rw [step_idle_settled hb hi rfl]
  exact congrArg _ (hostRead_of_idle (s := { s with inputs := rest }) hb a)

/-- `STATUS` as a number (R25). -/
theorem statusBits_toNat (s : State) : s.statusBits.toNat =
    s.busy.toNat + s.pres.toNat * 2 + s.rbit.toNat * 4 + s.ovf.toNat * 8 + s.ill.toNat * 16 + s.cerr.toNat * 32 := by
  simp only [State.statusBits]
  generalize s.busy = b, s.pres = p, s.rbit = r, s.ovf = o, s.ill = i, s.cerr = c
  revert b p r o i c
  decide

theorem regValue_status (s : State) : s.regValue 0x01 = s.statusBits.setWidth 32 := rfl

theorem regValue_rdata (s : State) : s.regValue 0x02 = s.rdata.setWidth 32 := rfl

theorem regValue_raw (s : State) : s.regValue 0x03 = s.raw.setWidth 32 := rfl

theorem regValue_mag (s : State) : s.regValue 0x04 = s.mag := rfl

theorem regValue_fmt (s : State) : s.regValue 0x05 = s.fmt.setWidth 32 := rfl

theorem regValue_seq (s : State) (i : Fin 8) : s.regValue (0x08 + i.val) = s.seq[i].setWidth 32 := by
  have hi := i.isLt
  unfold State.regValue
  iterate 5 rw [if_neg (by omega)]
  rw [if_pos (by omega), Nat.add_sub_cancel_left]
  simp

/-- The glyph table reads the same idle as busy (R30, R36). -/
theorem regValue_glyph (s : State) (k : Fin 22) : s.regValue (0x10 + k.val) = s.cfg.glyph[k].setWidth 32 := by
  have hk := k.isLt
  unfold State.regValue
  iterate 6 rw [if_neg (by omega)]
  rw [if_pos (by omega), Nat.add_sub_cancel_left, glyphAt_of_lt]

/-- `CMD`, the reserved numbers and all numbers from 0x26 on read 0 (R66). -/
theorem regValue_none {a : Nat} (ha : a = 0x00 ∨ a = 0x06 ∨ a = 0x07 ∨ 0x26 ≤ a) (s : State) : s.regValue a = 0 := by
  unfold State.regValue
  iterate 7 rw [if_neg (by omega)]

/-- Settles O5: the write is a command, and the step of an idle block runs it. -/
theorem stepRunsTheDecodedCommand : Obligations.StepRunsTheDecodedCommand :=
  fun _ _ _ _ _ hb hi hd => step_idleLegalWord hb hi hd

/-- Settles O6: the fields of a legal word are those of the command it decodes to. -/
theorem acceptanceLatchesTheWordAndSetsBusy : Obligations.AcceptanceLatchesTheWordAndSetsBusy := by
  intro w i s hd
  rw [decode_of_mbz w (mbz_of_decode hd)] at hd
  obtain ⟨-, hopc, himm⟩ := decodeFields_ok hd
  rw [State.started, hopc, himm]
  rfl

/-- Settles O8, by the equation of `step` for an idle block without inputs. -/
theorem idleBlockStaysAsItIs : Obligations.IdleBlockStaysAsItIs :=
  fun _ hb hi => step_idle_nothing hb hi

/-- Settles O9, by what a write to `CMD` and to each data register does to an idle block. -/
theorem idleWriteFollowsTheRegisterTable : Obligations.IdleWriteFollowsTheRegisterTable := by
  intro s after a v rest hb hi
  rw [← BitVec.setWidth_eq_extractLsb' (by decide)]
  refine ⟨?legal, ?illegal, ?raw, ?mag, ?fmt, ?other⟩
  case legal => rintro i rfl hd; exact step_idleLegalWord hb hi hd
  case illegal => rintro e rfl hd; exact step_idleIllegalWord hb hi hd
  case raw => rintro rfl; rw [step_idleDataWrite hb hi (by decide), writeData_raw]
  case mag => rintro rfl; rw [step_idleDataWrite hb hi (by decide), writeData_mag]
  case fmt =>
    rintro rfl
    exact ⟨_, fun k hk => fmtValue_written_getLsbD v hk, by rw [step_idleDataWrite hb hi (by decide), writeData_fmt]⟩
  case other => intro h0 h3 h4 h5; rw [step_idleDataWrite hb hi h0, writeData_other h3 h4 h5]

/-- Settles O10, by the value of each register while idle. -/
theorem idleReadReturnsTheRegister : Obligations.IdleReadReturnsTheRegister := by
  intro s after a rest hb hi
  refine ⟨_, step_idleRead hb hi, ?status, ?rdata, ?raw, ?mag, ?fmt, ?seq, ?glyph, fun ha => regValue_none ha s⟩
  case status =>
    rintro rfl
    rw [regValue_status, BitVec.toNat_setWidth_of_le (by decide), statusBits_toNat, hb, Bool.toNat_false, Nat.zero_add]
  case rdata => rintro rfl; rw [regValue_rdata, BitVec.toNat_setWidth_of_le (by decide)]
  case raw => rintro rfl; rw [regValue_raw, BitVec.toNat_setWidth_of_le (by decide)]
  case mag => rintro rfl; rw [regValue_mag]
  case fmt => rintro rfl; rw [regValue_fmt, BitVec.toNat_setWidth_of_le (by decide)]
  case seq => rintro i rfl; rw [regValue_seq, BitVec.toNat_setWidth_of_le (by decide)]
  case glyph => rintro k rfl; rw [regValue_glyph, BitVec.toNat_setWidth_of_le (by decide)]

/-! ## Writes to a busy block -/

/-- A write to a busy block is dropped and raises `CERR` (R62). -/
theorem hostWrite_of_busy {s : State} (h : s.busy = true) (a : Nat) (v : Word) : s.hostWrite a v = { s with cerr := true } := by
  simp [State.hostWrite, h, State.raise]

/-- Settles O11: the write is due between two primitives, and the busy block only raises `CERR`. -/
theorem busyWriteIsDroppedAndSetsCerr : Obligations.BusyWriteIsDroppedAndSetsCerr := by
  intro s a v rest hb hi
  rw [step_busy hb, tick_due hi rfl]
  exact congrArg _ (hostWrite_of_busy (s := { s with inputs := rest }) hb a v)

end Sys2Proof.Machine

namespace Sys2Proof

/-! ## The command words -/

/-- Fields of a well-formed command make a word that decodes to it (R80, R82, R90). -/
theorem decode_of_fields {w : Half} {i : Instr} (hwf : i.wf = true) (hmbz : mbzField w = 0) (hopc : opcField w = opcOf i)
    (himm : immField w = immOf i) : decode w = .ok i := by
  rw [decode_of_mbz w hmbz, hopc, himm, decodeFields_of i hwf]

/-- A command word is the word of the command it decodes to, which is well formed (R82, R90). -/
theorem encode_of_decode {w : Half} {i : Instr} (h : decode w = .ok i) : i.wf = true ∧ encode i = w := by
  have hmbz := mbz_of_decode h
  rw [decode_of_mbz w hmbz] at h
  obtain ⟨hwf, hopc, himm⟩ := decodeFields_ok h
  refine ⟨hwf, ?_⟩
  calc encode i = mbzField w ++ opcField w ++ immField w := by rw [encode, hopc, himm, hmbz]; rfl
    _ = w := word_of_fields w

/-- Settles O1: the fields of the encoded word are the command's own. -/
theorem decodeOfEncodeIsTheCommand : Obligations.DecodeOfEncodeIsTheCommand :=
  fun i hwf => decode_of_fields hwf (mbzField_encode i) (opcField_encode i) (immField_encode i)

/-- Settles O2: the command's fields are those of the word, and a word is its fields. -/
theorem encodeOfDecodedIsTheWord : Obligations.EncodeOfDecodedIsTheWord :=
  fun _ _ h => encode_of_decode h

/-! ## The opcode map -/

/-- The word of a well-formed command selects the row of its mnemonic (R83). -/
theorem encode_selects_ownRow (i : Instr) : Laws.TableRow.Statement i := by
  cases i with
  | owrst => exact Laws.TableRow.owrst
  | owwbit v => exact Laws.TableRow.owwbit v
  | owrbit => exact Laws.TableRow.owrbit
  | owwbyte b => exact Laws.TableRow.owwbyte b
  | owrbyte => exact Laws.TableRow.owrbyte
  | brev x => exact Laws.TableRow.brev x
  | cvt1 => exact Laws.TableRow.cvt1
  | cvt2 => exact Laws.TableRow.cvt2
  | enc => exact Laws.TableRow.enc
  | dput => exact Laws.TableRow.dput

theorem OpcodeRow.selects_iff (r : OpcodeRow) (w : Half) : r.selects w = true ↔ w &&& r.mask = r.pattern := by
  simp [OpcodeRow.selects]

/-- Two rows of the map differ in a bit that both masks keep. -/
theorem opcodeMap_patterns_differ :
    ∀ r ∈ opcodeMap, ∀ r' ∈ opcodeMap, r.pattern &&& r'.mask = r'.pattern &&& r.mask → r = r' := by decide

/-- The rows are disjoint: a word selects at most one (R83). -/
theorem opcodeMap_disjoint {r r' : OpcodeRow} {w : Half} (hr : r ∈ opcodeMap) (hr' : r' ∈ opcodeMap) (h : r.selects w = true)
    (h' : r'.selects w = true) : r = r' := by
  rw [OpcodeRow.selects_iff] at h h'
  apply opcodeMap_patterns_differ r hr r' hr'
  rw [← h, ← h', BitVec.and_assoc, BitVec.and_assoc, BitVec.and_comm r.mask]

/-- No two rows carry the same mnemonic (R83). -/
theorem opcodeMap_mnemonic_injective : ∀ r ∈ opcodeMap, ∀ r' ∈ opcodeMap, r.mnemonic = r'.mnemonic → r = r' := by decide

/-- A legal word selects the row of its command and no other (R83). -/
theorem selects_iff_mnemonic {w : Half} {i : Instr} {r : OpcodeRow} (hd : decode w = .ok i) (hr : r ∈ opcodeMap) :
    r.selects w = true ↔ r.mnemonic = mnemonicOf i := by
  obtain ⟨hwf, rfl⟩ := encode_of_decode hd
  obtain ⟨own, hown, hname, hsel⟩ := encode_selects_ownRow i hwf
  constructor
  · intro h
    rw [opcodeMap_disjoint hr hown h hsel, hname]
  · intro h
    rwa [opcodeMap_mnemonic_injective r hr own hown (h.trans hname.symm)]

/-- Every row keeps all of `mbz` and `opc`, and wants `mbz` zero (R83). -/
theorem opcodeMap_keeps_mbz_opc : ∀ r ∈ opcodeMap,
    mbzField r.mask = BitVec.allOnes 4 ∧ opcField r.mask = BitVec.allOnes 4 ∧ mbzField r.pattern = 0 := by decide

theorem mbzField_and (w m : Half) : mbzField (w &&& m) = mbzField w &&& mbzField m := BitVec.extractLsb'_and

theorem opcField_and (w m : Half) : opcField (w &&& m) = opcField w &&& opcField m := BitVec.extractLsb'_and

theorem immField_and (w m : Half) : immField (w &&& m) = immField w &&& immField m := BitVec.extractLsb'_and

/-- A word that selects a row has the row's operation code, and its immediate agrees with the row's under the mask (R83). -/
theorem fields_of_selects {r : OpcodeRow} {w : Half} (hr : r ∈ opcodeMap) (h : r.selects w = true) :
    mbzField w = 0 ∧ opcField w = opcField r.pattern ∧ immField w &&& immField r.mask = immField r.pattern := by
  obtain ⟨hmbz, hopc, hzero⟩ := opcodeMap_keeps_mbz_opc r hr
  rw [OpcodeRow.selects_iff] at h
  refine ⟨?mbz, ?opc, ?imm⟩
  case mbz => rw [← hzero, ← h, mbzField_and, hmbz, BitVec.and_allOnes]
  case opc => rw [← h, opcField_and, hopc, BitVec.and_allOnes]
  case imm => rw [← h, immField_and]

/-- A row's operation code belongs to a well-formed command, whatever the immediate has outside the row's mask (R82, R83). -/
theorem command_of_row {r : OpcodeRow} (hr : r ∈ opcodeMap) {imm : Byte} (h : imm &&& immField r.mask = immField r.pattern) :
    ∃ i : Instr, i.wf = true ∧ opcField r.pattern = opcOf i ∧ imm = immOf i := by
  have hnone : imm &&& BitVec.allOnes 8 = 0 → imm = 0 := by rw [BitVec.and_allOnes]; exact id
  have hbit : imm &&& 0xFE = 0 → imm.extractLsb' 1 7 = 0 := fun h => by
    have hand : imm.extractLsb' 1 7 &&& BitVec.allOnes 7 = 0 :=
      BitVec.extractLsb'_and.symm.trans (congrArg (BitVec.extractLsb' 1 7) h)
    rwa [BitVec.and_allOnes] at hand
  simp only [opcodeMap, List.mem_cons, List.not_mem_nil, or_false] at hr
  rcases hr with rfl | rfl | rfl | rfl | rfl | rfl | rfl | rfl | rfl | rfl
  · exact ⟨.owrst, rfl, rfl, hnone h⟩
  · exact ⟨.owwbit imm, by simpa [Instr.wf] using hbit h, rfl, rfl⟩
  · exact ⟨.owrbit, rfl, rfl, hnone h⟩
  · exact ⟨.owwbyte imm, rfl, rfl, rfl⟩
  · exact ⟨.owrbyte, rfl, rfl, hnone h⟩
  · exact ⟨.brev imm, rfl, rfl, rfl⟩
  · exact ⟨.cvt1, rfl, rfl, hnone h⟩
  · exact ⟨.cvt2, rfl, rfl, hnone h⟩
  · exact ⟨.enc, rfl, rfl, hnone h⟩
  · exact ⟨.dput, rfl, rfl, hnone h⟩

/-- A word that selects a row is legal (R83). -/
theorem legal_of_selects {r : OpcodeRow} {w : Half} (hr : r ∈ opcodeMap) (h : r.selects w = true) : ∃ i, decode w = .ok i := by
  obtain ⟨hmbz, hopc, himm⟩ := fields_of_selects hr h
  obtain ⟨i, hwf, hi, hv⟩ := command_of_row hr himm
  exact ⟨i, decode_of_fields hwf hmbz (hopc.trans hi) hv⟩

/-- Settles O3: the rows are disjoint and a legal word selects its own; a word that selects a row has the fields of a command. -/
theorem legalWordsSelectExactlyOneRow : Obligations.LegalWordsSelectExactlyOneRow :=
  fun _ => ⟨fun _ hd _ hr => selects_iff_mnemonic hd hr, fun ⟨_, hr, h⟩ => legal_of_selects hr h⟩

/-- Settles O4: each word is closed, so the decoder computes its answer. -/
theorem decodeOfWrittenWords : Obligations.DecodeOfWrittenWords := by
  unfold Obligations.DecodeOfWrittenWords
  decide

end Sys2Proof

namespace Sys2Proof

/-! ## The command word of `OWWBIT` -/

/-- `OWWBIT` words are 0x02 before the operand (R80, R83). -/
theorem encode_owwbit (v : Byte) : encode (.owwbit v) = 0x02#8 ++ v := by
  have hhigh : 0#4 ++ 0x2#4 = 0x02#8 := by decide
  rw [← hhigh]
  rfl

/-- A word of `OWWBIT` is rejected by name where `imm8[7:1]` is not zero (R82, R93). -/
theorem decode_notABit {v : Byte} (h : v.extractLsb' 1 7 ≠ 0) : decode (0x02#8 ++ v) = .error (.notABit v) := by
  rw [← encode_owwbit, decode_of_mbz _ (mbzField_encode _), opcField_encode, immField_encode]
  exact if_neg h

end Sys2Proof

namespace Sys2Proof.Machine

/-! ## Slots of a running block -/

theorem State.Running.questioned {s : State} (h : s.Running) : s.questioned.Running := h.congr rfl rfl rfl

theorem State.Running.afterWriteSlot {s : State} (h : s.Running) (b : Bool) : (s.afterWriteSlot b).Running := h.congr rfl rfl rfl

theorem State.Running.afterReadSlot {s : State} (h : s.Running) (b : Bool) : (s.afterReadSlot b).Running := h.congr rfl rfl rfl

theorem State.Running.afterWriteRounds {s : State} (h : s.Running) (n : Nat) : (s.afterWriteRounds n).Running := h.congr rfl rfl rfl

/-- The write slot that opens a bus operation on a usable line is like any other, once the environment has been asked (R103, R133). -/
theorem runPrims_firstWriteBit {s : State} (h : s.Running) (hu : s.lineUsable = true) (v : BitSource) (ps : List Prim) :
    runPrims (writeBitProg .driveFirst v ++ ps) s = runPrims ps (s.questioned.afterWriteSlot (s.questioned.slotBit v)) :=
  (runPrims_driveFirst h hu _).trans (runPrims_writeBit h.questioned v ps)

/-- The read slot that opens a bus operation on a usable line is like any other, once the environment has been asked (R104, R133). -/
theorem runPrims_firstReadBit {s : State} (h : s.Running) (hu : s.lineUsable = true) (ps : List Prim) :
    runPrims (readBitProg s.cfg .driveFirst ++ ps) s =
      runPrims ps (s.questioned.afterReadSlot (s.questioned.sampleAt 0 (s.lt ++ readOpening s.cfg))) :=
  (runPrims_driveFirst h hu _).trans (runPrims_readBit h.questioned ps)

/-! ## The bit commands and the written byte, in a quiet block on a usable line -/

/-- `OWWBIT`: one write slot carrying `imm8[0]` (R105). -/
theorem exec_owwbit_quiet {s : State} (h : s.quiet = true) (hu : s.lineUsable = true) (v : Byte) :
    exec (.owwbit v) s = .next { s with
      opc := 0x2, imm := v, busy := false, hung := false, drv := false, stp := 5,
      lt := s.lt ++ writeSlot s.cfg (v.getLsbD 0), levels := s.questioned.levels } := by
  have hr := started_running h (.owwbit v)
  rw [exec_eq]
  refine congrArg _ ?_
  calc runPrims (writeBitProg .driveFirst .imm ++ [.finish]) (s.started (.owwbit v))
    _ = runPrims [.finish] ((s.started (.owwbit v)).questioned.afterWriteSlot (v.getLsbD 0)) := runPrims_firstWriteBit hr hu _ _
    _ = _ := runPrims_finish (hr.questioned.afterWriteSlot _)

/-- `OWRBIT`: one read slot, whose sample goes to `RBIT` (R106). -/
theorem exec_owrbit_quiet {s : State} (h : s.quiet = true) (hu : s.lineUsable = true) :
    exec .owrbit s = .next { s with
      opc := 0x3, imm := 0, busy := false, hung := false, drv := false, stp := 8,
      smp := s.questioned.sampleAt 0 (s.lt ++ readOpening s.cfg),
      rbit := s.questioned.sampleAt 0 (s.lt ++ readOpening s.cfg),
      lt := s.lt ++ readSlot s.cfg (s.questioned.sampleAt 0 (s.lt ++ readOpening s.cfg)),
      levels := s.questioned.levels.drop 1 } := by
  have hr := started_running h .owrbit
  have hread := hr.questioned.afterReadSlot (s.questioned.sampleAt 0 (s.lt ++ readOpening s.cfg))
  rw [exec_eq, List.drop_one]
  refine congrArg _ ?_
  calc runPrims (readBitProg s.cfg .driveFirst ++ [.latchRbit, .finish]) (s.started .owrbit)
    _ = runPrims [.latchRbit, .finish] _ := runPrims_firstReadBit hr hu _
    _ = runPrims [.finish] _ := runPrims_quiet_cons hread (not_sticks_of_ne (by decide) _) _
    _ = _ := runPrims_finish (advance_running hread (by decide))

/-- The slots of `OWWBYTE` run as eight rounds of the loop of `WriteByte`, once the environment has been asked (R124, R133). -/
theorem runPrims_owwbyteSlots {s : State} (h : s.Running) (hu : s.lineUsable = true) :
    runPrims owwbyteProg.tail s = runPrims [.finish] (s.questioned.afterWriteRounds 8) := by
  have hrounds : owwbyteProg.tail = .driveFirst :: (rounds 8 (writeBitProg .driveLow .sr ++ [.shiftOut])).tail ++ [.finish] := rfl
  rw [hrounds, List.cons_append, runPrims_driveFirst h hu, ← List.cons_append]
  exact (runPrims_append _ _ _).trans (congrArg _ (runPrims_writeRounds 8 h.questioned))

/-- `OWWBYTE`: eight write slots carrying the byte's bits in bus order; `SR` and `BITCNT` end at 0 (R125, R124). -/
theorem exec_owwbyte_quiet {s : State} (h : s.quiet = true) (hu : s.lineUsable = true) (b : Byte) :
    exec (.owwbyte b) s = .next { s with
      opc := 0x4, imm := b, busy := false, hung := false, drv := false, stp := 42, sr := 0, bitcnt := 0,
      lt := s.lt ++ (busBits b).flatMap (writeSlot s.cfg), levels := s.questioned.levels } := by
  have hr := started_running h (.owwbyte b)
  have hload := advance_running hr (p := .loadSr) (by decide)
  rw [exec_eq]
  refine congrArg _ ?_
  calc runPrims owwbyteProg (s.started (.owwbyte b))
    _ = runPrims owwbyteProg.tail _ := runPrims_quiet_cons hr (not_sticks_of_ne (by decide) _) _
    _ = runPrims [.finish] _ := runPrims_owwbyteSlots hload hu
    _ = _ := runPrims_finish (hload.questioned.afterWriteRounds 8)
    _ = _ := by
      have hsr : b >>> 8 = 0 := BitVec.ushiftRight_eq_zero (Nat.le_refl 8)
      simp [State.afterWriteRounds, advance, execPrim, State.started, opcOf, immOf, busBits, hsr]

/-! ## Reading a written byte back -/

/-- Write slots give their bits back: under `T_W1L < T_W0L` the low time tells a one from a zero (R7, R109). -/
theorem readBack_writeSlots {c : Cfg} (h : c.tW1L < c.tW0L) (l : List Bool) : readBack c (l.flatMap (writeSlot c)) = l := by
  have hbit : ∀ b : Bool, decide ((if b then c.tW1L else c.tW0L) = c.tW1L) = b
    | true => decide_eq_true rfl
    | false => decide_eq_false h.ne'
  rw [readBack, lowPulses_writeSlots, List.map_map]
  calc l.map _ = l.map id := List.map_congr_left fun b _ => hbit b
    _ = l := List.map_id l

theorem tW1L_lt_tW0L {c : Cfg} (h : c.wf = true) : c.tW1L < c.tW0L := (of_decide_eq_true h).1

/-! ## The statements -/

/-- Settles O18: the run of `OWWBIT` is one write slot, and the words it does not take are those of an operand with a high bit set. -/
theorem owwbitSendsOneWriteSlot : Obligations.OwwbitSendsOneWriteSlot :=
  ⟨by decide, by decide, fun _ hv => decode_notABit hv,
    fun v _ hq hu => ⟨⟨_, exec_owwbit_quiet hq hu v⟩, fun hwf => duration_writeSlot hwf (v.getLsbD 0)⟩⟩

/-- Settles O19: the run of `OWRBIT` is one read slot and the latching of its sample. -/
theorem owrbitLatchesTheSample : Obligations.OwrbitLatchesTheSample :=
  ⟨by decide, fun s hq hu => ⟨⟨_, _, exec_owrbit_quiet hq hu⟩, duration_readSlot s.cfg⟩⟩

/-- Settles O27: the trace grows by the write slots of the byte's bits, and write slots give their bits back. -/
theorem lowTimesCarryTheByte : Obligations.LowTimesCarryTheByte := by
  intro b s t hwf hq hu he
  rw [exec_owwbyte_quiet hq hu] at he
  obtain rfl := Host.Outcome.next.inj he
  rw [List.drop_left, readBack_writeSlots (tW1L_lt_tW0L hwf)]

end Sys2Proof.Machine

namespace Sys2Proof

/-! ## The command words of `OWWBYTE` and `BREV` -/

/-- `OWWBYTE` words are 0x04 before the byte (R80, R83). -/
theorem encode_owwbyte (b : Byte) : encode (.owwbyte b) = 0x04#8 ++ b := by
  have hhigh : 0#4 ++ 0x4#4 = 0x04#8 := by decide
  rw [← hhigh]
  rfl

/-- `BREV` words are 0x06 before the operand (R80, R83). -/
theorem encode_brev (x : Byte) : encode (.brev x) = 0x06#8 ++ x := by
  have hhigh : 0#4 ++ 0x6#4 = 0x06#8 := by decide
  rw [← hhigh]
  rfl

end Sys2Proof

namespace Sys2Proof.Machine

/-! ## The bit-order mirror and the accumulated byte -/

/-- The mirror undoes itself (R130). -/
theorem rev8_rev8 (x : Byte) : rev8 (rev8 x) = x := by
  refine BitVec.eq_of_getLsbD_eq fun k hk => ?_
  calc (rev8 (rev8 x)).getLsbD k
    _ = (rev8 x).getLsbD (7 - k) := rev8_mirror _ k hk
    _ = x.getLsbD (7 - (7 - k)) := rev8_mirror x (7 - k) (by omega)
    _ = x.getLsbD k := by rw [Nat.sub_sub_self (by omega)]

/-- Of eight bits shifted in, the k-th stands at bit k of the mirrored byte (R126, R128). -/
theorem getElem?_eq_rev8_shiftIns {l : List Bool} (hl : l.length = 8) {k : Nat} (hk : k < 8) :
    l[k]? = some ((rev8 (shiftIns 0 l)).getLsbD k) := by
  match l, hl with
  | [b0, b1, b2, b3, b4, b5, b6, b7], _ =>
    rw [rev8_mirror _ k hk, shiftIns_eight b0 b1 b2 b3 b4 b5 b6 b7 k hk, List.getElem?_eq_getElem (by simpa using hk)]
    rfl

/-- A byte's bits in bus order, shifted in, mirror to the byte (R67, R128). -/
theorem rev8_shiftIns_busBits (b : Byte) : rev8 (shiftIns 0 (busBits b)) = b := by
  refine BitVec.eq_of_getLsbD_eq fun k hk => ?_
  have hbit := getElem?_eq_rev8_shiftIns (l := busBits b) (by simp [busBits]) hk
  simpa [busBits, hk] using hbit.symm

/-! ## `OWRST`, `OWRBYTE` and `BREV` in a quiet block -/

/-- `OWRST` but for its end (R121); `d` is its `DriveLow()`, the first of the operation or another. -/
def resetCycleProg (c : Cfg) (d : Prim) : List Prim :=
  [d, .wait c.tRstl, .release, .wait c.tPds, .sense, .latchPres, .wait c.tRstt]

/-- The state after a reset cycle that sampled `b` (R121). -/
def State.afterResetCycle (s : State) (b : Bool) : State :=
  { s with drv := false, smp := b, pres := !b, levels := s.levels.tail, lt := s.lt ++ resetCycle s.cfg b, stp := s.stp + 7 }

theorem State.Running.afterResetCycle {s : State} (h : s.Running) (b : Bool) : (s.afterResetCycle b).Running := h.congr rfl rfl rfl

theorem resetCycle_straight (s : State) :
    (resetCycleProg s.cfg .driveLow).foldl advance s = s.afterResetCycle (s.sampleAt 0 (s.lt ++ resetOpening s.cfg)) := by
  obtain ⟨⟩ := s
  rename_i levels _ _
  cases levels <;>
    simp [resetCycleProg, advance, execPrim, State.driveLow, State.waitFor, State.release, State.emit, State.sense, State.lineLevel,
      State.envLevel, State.answer, resetCycle, resetOpening, State.sampleAt, State.afterResetCycle]

/-- `OWRST`: the reset cycle, whose one sample goes inverted to `PRES` (R121). -/
theorem exec_owrst_quiet {s : State} (h : s.quiet = true) (hu : s.lineUsable = true) :
    exec .owrst s = .next { s with
      opc := 0x1, imm := 0, busy := false, hung := false, drv := false, stp := 8,
      smp := s.questioned.sampleAt 0 (s.lt ++ resetOpening s.cfg),
      pres := !(s.questioned.sampleAt 0 (s.lt ++ resetOpening s.cfg)),
      lt := s.lt ++ resetCycle s.cfg (s.questioned.sampleAt 0 (s.lt ++ resetOpening s.cfg)),
      levels := s.questioned.levels.drop 1 } := by
  have hr := started_running h .owrst
  rw [exec_eq, List.drop_one]
  refine congrArg _ ?_
  calc runPrims (resetCycleProg s.cfg .driveFirst ++ [.finish]) (s.started .owrst)
    _ = runPrims (resetCycleProg s.cfg .driveLow ++ [.finish]) _ := runPrims_driveFirst hr hu _
    _ = runPrims [.finish] _ := (runPrims_append _ _ _).trans (congrArg _ (runPrims_straight (by rfl) hr.questioned))
    _ = runPrims [.finish] _ := congrArg _ (resetCycle_straight (s.started .owrst).questioned)
    _ = _ := runPrims_finish (hr.questioned.afterResetCycle _)

/-- The slots of `OWRBYTE` run as eight rounds of the loop of `ReadByte`, once the environment has been asked (R126, R133). -/
theorem runPrims_owrbyteSlots {s : State} (h : s.Running) (hu : s.lineUsable = true) :
    ∃ b, runPrims (owrbyteProg s.cfg).tail s = runPrims [.latchRdata, .finish] (s.questioned.afterReadRounds 8 b) := by
  obtain ⟨b, hb⟩ := runPrims_readRounds 8 h.questioned
  have hrounds : (owrbyteProg s.cfg).tail =
      .driveFirst :: (rounds 8 (readBitProg s.cfg .driveLow ++ [.shiftIn])).tail ++ [.latchRdata, .finish] := rfl
  refine ⟨b, ?_⟩
  rw [hrounds, List.cons_append, runPrims_driveFirst h hu, ← List.cons_append]
  exact (runPrims_append _ _ _).trans (congrArg _ hb)

/-- `OWRBYTE`: eight read slots, whose samples are shifted into `SR` and mirrored into `RDATA` (R128, R126). -/
theorem exec_owrbyte_quiet {s : State} (h : s.quiet = true) (hu : s.lineUsable = true) :
    ∃ b, exec .owrbyte s = .next { s with
      opc := 0x5, imm := 0, busy := false, hung := false, drv := false, stp := 59, smp := b,
      sr := shiftIns 0 (s.questioned.slotSamples 8), bitcnt := 0, rdata := rev8 (shiftIns 0 (s.questioned.slotSamples 8)),
      lt := s.lt ++ (s.questioned.slotSamples 8).flatMap (readSlot s.cfg), levels := s.questioned.levels.drop 8 } := by
  have hr := started_running h .owrbyte
  have hclear := advance_running hr (p := .clearSr) (by decide)
  obtain ⟨b, hslots⟩ := runPrims_owrbyteSlots hclear hu
  have hread : ((advance (s.started .owrbyte) .clearSr).questioned.afterReadRounds 8 b).Running :=
    hclear.questioned.congr rfl rfl rfl
  have hsamples : (advance (s.started .owrbyte) .clearSr).questioned.slotSamples 8 = s.questioned.slotSamples 8 :=
    slotSamples_congr rfl rfl rfl rfl 8
  refine ⟨b, ?_⟩
  rw [exec_eq]
  refine congrArg _ ?_
  calc runPrims (owrbyteProg s.cfg) (s.started .owrbyte)
    _ = runPrims (owrbyteProg s.cfg).tail _ := runPrims_quiet_cons hr (not_sticks_of_ne (by decide) _) _
    _ = runPrims [.latchRdata, .finish] _ := hslots
    _ = _ := runPrims_straight_finish (ps := [.latchRdata]) (by rfl) hread
    _ = _ := by
      simp only [State.afterReadRounds, hsamples]
      simp [advance, execPrim, State.started, opcOf, immOf]

/-- `BREV`: `RDATA` is the mirrored operand, and the line is left alone (R131). -/
theorem exec_brev_quiet {s : State} (h : s.quiet = true) (x : Byte) :
    exec (.brev x) s = .next { s with opc := 0x6, imm := x, busy := false, hung := false, stp := 2, rdata := rev8 x } := by
  rw [exec_eq]
  exact congrArg _ (runPrims_straight_finish (ps := [.reverse]) (by rfl) (started_running h (.brev x)))


/-! ## The samples a byte read finds -/

/-- While no device holds the line, the samples are the environment's listed answers (R101). -/
theorem slotSamples_eq_take {s : State} (h : s.held = false) {n : Nat} (hn : n ≤ s.levels.length) :
    s.slotSamples n = s.levels.take n := by
  induction n with
  | zero => rfl
  | succ n ih => simp [State.slotSamples, ih (by omega), State.sampleAt, h, List.getElem?_eq_getElem hn]

/-- A line held low reads low (R76, R133). -/
theorem sampleAt_of_held {s : State} (h : s.held = true) (k : Nat) (lt : List LineEvent) : s.sampleAt k lt = false := by
  simp [State.sampleAt, h]

/-- A byte read from a line held low samples zeros only (R133). -/
theorem slotSamples_of_held {s : State} (h : s.held = true) (n : Nat) : s.slotSamples n = List.replicate n false := by
  induction n with
  | zero => rfl
  | succ n ih => rw [State.slotSamples, ih, sampleAt_of_held h, ← List.replicate_succ']

/-- Where `WEDGE_HANGS` is false every line is usable (R133). -/
theorem lineUsable_of_not_wedgeHangs {s : State} (h : s.cfg.wedgeHangs = false) : s.lineUsable = true := by
  simp [State.lineUsable, h]

/-! ## What an operation appends to the line trace -/

/-- `l` is a trace of the operation `i` on the line, whatever the environment answers (R120). -/
def isLineTrace (c : Cfg) (i : Instr) (l : List LineEvent) : Prop :=
  match i with
  | .owrst     => ∃ b, l = resetCycle c b
  | .owwbit v  => l = writeSlot c (v.getLsbD 0)
  | .owrbit    => ∃ b, l = readSlot c b
  | .owwbyte b => l = (busBits b).flatMap (writeSlot c)
  | .owrbyte   => ∃ bits : List Bool, bits.length = 8 ∧ l = bits.flatMap (readSlot c)
  | .brev _    => l = []
  | .cvt1      => l = []
  | .cvt2      => l = []
  | .enc       => l = []
  | .dput      => l = []

/-- A primitive of the line (R100). -/
def Prim.onLine : Prim → Bool
  | .driveFirst | .driveLow | .release | .wait _ | .slotLow _ | .slotPad _ | .sense => true
  | _ => false

/-- Only primitives of the line append to its trace (R100). -/
theorem execPrim_lt {p : Prim} (h : p.onLine = false) (s : State) : (execPrim p s).lt = s.lt := by
  cases p with
  | driveFirst | driveLow | release | wait _ | slotLow _ | slotPad _ | sense => cases h
  | encode => simp only [execPrim, State.encodeGlyphs]; split <;> rfl
  | _ => rfl

/-- An operation that uses no line has no primitive of the line (R120). -/
theorem not_onLine_of_not_busOp {c : Cfg} {i : Instr} (hi : isBusOp i = false) : ∀ p ∈ progOf c i, p.onLine = false := by
  have hall : (progOf c i).all (fun p => !p.onLine) = true := by
    cases i with
    | brev _ | cvt1 | cvt2 | enc | dput => rfl
    | _ => cases hi
  simpa using hall

/-- An operation that uses no line and in which nothing lands leaves the line trace as it was (R120). -/
theorem exec_lt_of_not_busOp {i : Instr} (hi : isBusOp i = false) {s t : State} (h : s.quiet = true) (he : exec i s = .next t) :
    t.lt = s.lt := by
  have key : t.quiet = true ∧ t.lt = s.lt := by
    refine exec_induction (P := fun u => u.quiet = true ∧ u.lt = s.lt) he ⟨h, rfl⟩ ?_ ?_
    · rintro u e rest ⟨hq, _⟩ _ hin ha
      simp [State.quiet, hin, ha] at hq
    · rintro u p hp ⟨hq, hlt⟩ _ _
      refine ⟨primStep_keepsQuiet hq p, ?_⟩
      rcases primStep_cases p u with ⟨_, hs⟩ | ⟨_, hs⟩ <;> rw [hs]
      · exact hlt
      · exact (execPrim_lt (not_onLine_of_not_busOp hi p hp) u).trans hlt
  exact key.2

/-- In a quiet block on a usable line every operation appends a trace of its own (R120). -/
theorem exec_isLineTrace {i : Instr} {s t : State} (h : s.quiet = true) (hu : isBusOp i = true → s.lineUsable = true)
    (he : exec i s = .next t) : ∃ l, t.lt = s.lt ++ l ∧ isLineTrace s.cfg i l := by
  cases i with
  | owrst => rw [exec_owrst_quiet h (hu rfl)] at he; cases he; exact ⟨_, rfl, _, rfl⟩
  | owwbit v => rw [exec_owwbit_quiet h (hu rfl)] at he; cases he; exact ⟨_, rfl, rfl⟩
  | owrbit => rw [exec_owrbit_quiet h (hu rfl)] at he; cases he; exact ⟨_, rfl, _, rfl⟩
  | owwbyte b => rw [exec_owwbyte_quiet h (hu rfl)] at he; cases he; exact ⟨_, rfl, rfl⟩
  | owrbyte =>
    obtain ⟨b, hb⟩ := exec_owrbyte_quiet h (hu rfl)
    rw [hb] at he; cases he
    exact ⟨_, rfl, _, slotSamples_length _ 8, rfl⟩
  | _ => exact ⟨[], by rw [exec_lt_of_not_busOp rfl h he, List.append_nil], rfl⟩

/-! ## Durations and low pulses -/

/-- A reset cycle lasts `T_RSTL + T_PDS + T_RSTT` (R121). -/
theorem duration_resetCycle (c : Cfg) (b : Bool) : duration (resetCycle c b) = c.tRstl + c.tPds + c.tRstt := by
  simp [resetCycle, resetOpening, duration, eventTime]
  omega

/-- A reset cycle is one low pulse of `T_RSTL` (R121). -/
theorem lowPulses_resetCycle (c : Cfg) (b : Bool) : lowPulses (resetCycle c b) = [c.tRstl] := by
  simp [resetCycle, resetOpening, lowPulses, lowPulsesFrom]

/-- The low pulses of write slots are those of the two bits (R103). -/
theorem mem_lowPulses_writeSlots {c : Cfg} {bits : List Bool} {n : Nat} (h : n ∈ lowPulses (bits.flatMap (writeSlot c))) :
    n = c.tW1L ∨ n = c.tW0L := by
  rw [lowPulses_writeSlots, List.mem_map] at h
  obtain ⟨b, -, rfl⟩ := h
  cases b <;> simp

/-- The low pulses of read slots are those that open them (R104). -/
theorem mem_lowPulses_readSlots {c : Cfg} {bits : List Bool} {n : Nat} (h : n ∈ lowPulses (bits.flatMap (readSlot c))) :
    n = c.tRinit := by
  rw [lowPulses_readSlots, List.mem_map] at h
  obtain ⟨_, -, rfl⟩ := h
  rfl

/-- The low pulses of an operation's own traces are the configured ones, and `OWRST` alone has a reset pulse (R120). -/
theorem mem_lowPulses_of_isLineTrace {c : Cfg} {i : Instr} {l : List LineEvent} (h : isLineTrace c i l) {n : Nat}
    (hn : n ∈ lowPulses l) : (i = .owrst ∧ n = c.tRstl) ∨ n = c.tW1L ∨ n = c.tW0L ∨ n = c.tRinit := by
  cases i with
  | owrst =>
    obtain ⟨b, rfl⟩ := h
    rw [lowPulses_resetCycle, List.mem_singleton] at hn
    exact .inl ⟨rfl, hn⟩
  | owwbit v =>
    obtain rfl := h
    exact .inr ((mem_lowPulses_writeSlots (bits := [v.getLsbD 0]) (by simpa using hn)).imp_right .inl)
  | owrbit =>
    obtain ⟨b, rfl⟩ := h
    exact .inr (.inr (.inr (mem_lowPulses_readSlots (bits := [b]) (by simpa using hn))))
  | owwbyte b =>
    obtain rfl := h
    exact .inr ((mem_lowPulses_writeSlots hn).imp_right .inl)
  | owrbyte =>
    obtain ⟨bits, -, rfl⟩ := h
    exact .inr (.inr (.inr (mem_lowPulses_readSlots hn)))
  | _ =>
    obtain rfl := h
    cases hn

/-! ## The statements about a usable line -/

/-- Settles O17: the run of `OWRST` is one reset cycle and the latching of its sample. -/
theorem owrstRunsTheResetCycle : Obligations.OwrstRunsTheResetCycle :=
  ⟨by decide, fun s hq hu => ⟨⟨_, _, exec_owrst_quiet hq hu⟩, duration_resetCycle s.cfg⟩⟩

/-- Settles O20: the run of `OWWBYTE` is the write slots of the byte's bits in bus order. -/
theorem owwbyteSendsTheByteLeastSignificantBitFirst : Obligations.OwwbyteSendsTheByteLeastSignificantBitFirst := by
  intro b
  refine ⟨encode_owwbyte b ▸ decodeOfEncodeIsTheCommand (.owwbyte b) rfl,
    fun s hq hu => ⟨⟨_, exec_owwbyte_quiet hq hu b⟩, fun hwf => ?_⟩⟩
  rw [duration_writeSlots hwf]
  rfl

/-- Settles O21: the samples are shifted into `SR`, the first ending at bit 7, and `RDATA` is the mirror of `SR`. -/
theorem owrbyteCollectsTheSamples : Obligations.OwrbyteCollectsTheSamples := by
  refine ⟨by decide, fun s hq hu => ?_⟩
  obtain ⟨b, he⟩ := exec_owrbyte_quiet hq hu
  have hlen := slotSamples_length s.questioned 8
  refine ⟨_, _, _, b, fun k hk => ⟨getElem?_eq_rev8_shiftIns hlen hk, rev8_mirror _ k hk⟩, ?_, he⟩
  rw [duration_readSlots, hlen]

/-- Settles O22: `BREV` stores the mirror of its operand. -/
theorem brevMirrorsTheByte : Obligations.BrevMirrorsTheByte :=
  fun x => ⟨encode_brev x ▸ decodeOfEncodeIsTheCommand (.brev x) rfl,
    fun _ hq => ⟨rev8 x, _, rev8_mirror x, exec_brev_quiet hq x⟩⟩

/-- Settles O23: `BREV` stores the mirror of its operand, and the mirror undoes itself. -/
theorem brevTwiceGivesTheByteBack : Obligations.BrevTwiceGivesTheByteBack := by
  intro x s t u hq ht hu
  rw [exec_brev_quiet hq] at ht
  obtain rfl := Host.Outcome.next.inj ht
  rw [exec_brev_quiet (by exact hq)] at hu
  obtain rfl := Host.Outcome.next.inj hu
  exact rev8_rev8 x

/-- Where the environment's answers are the byte's bits, after a high line where `WEDGE_HANGS` asks for that, `OWRBYTE` reads the byte
(R128, R129). -/
theorem exec_owrbyte_echo {s : State} (hq : s.quiet = true) (hheld : s.held = false) {b : Byte} {more : List Bool}
    (hl : s.levels = (if s.cfg.wedgeHangs then [true] else []) ++ busBits b ++ more) :
    ∃ u, exec .owrbyte s = .next u ∧ u.rdata = b := by
  have hopen : s.lineUsable = true ∧ s.questioned.levels = busBits b ++ more := by
    cases hw : s.cfg.wedgeHangs <;> simp [State.lineUsable, State.envLevel, State.answer, State.questioned, hw, hl, hheld]
  obtain ⟨hu, hlevels⟩ := hopen
  have hsamples : s.questioned.slotSamples 8 = busBits b := by
    rw [slotSamples_eq_take (s := s.questioned) hheld (by rw [hlevels]; simp [busBits]), hlevels]
    rfl
  obtain ⟨_, he⟩ := exec_owrbyte_quiet hq hu
  refine ⟨_, he, ?_⟩
  rw [hsamples]
  exact rev8_shiftIns_busBits b

/-- Settles O24: the echoed slots give the byte's bits back, and these are the samples that `OWRBYTE` shifts in and mirrors. -/
theorem loopbackReturnsTheByte : Obligations.LoopbackReturnsTheByte := by
  intro b s t more hq hwf hheld hu ht
  rw [lowTimesCarryTheByte b s t hwf hq hu ht]
  rw [exec_owwbyte_quiet hq hu] at ht
  obtain rfl := Host.Outcome.next.inj ht
  exact exec_owrbyte_echo (more := more) (by exact hq) (by exact hheld) rfl

/-- Settles O26: the events an operation appends are a trace of its own. -/
theorem lowPulsesAreTheConfiguredOnes : Obligations.LowPulsesAreTheConfiguredOnes := by
  intro i s t hq hu he
  obtain ⟨l, hl, htrace⟩ := exec_isLineTrace hq hu he
  exact ⟨l, hl, fun _ hn => mem_lowPulses_of_isLineTrace htrace hn⟩

/-- Settles O28: a line held low answers every sample with a zero, and where `WEDGE_HANGS` is false it is usable. -/
theorem wedgedLineReadsAsLow : Obligations.WedgedLineReadsAsLow := by
  intro s hq hheld hw
  have hu := lineUsable_of_not_wedgeHangs hw
  have hlow : ∀ k lt, s.questioned.sampleAt k lt = false := sampleAt_of_held hheld
  have hlows := slotSamples_of_held (s := s.questioned) hheld 8
  have hzero : rev8 (shiftIns 0 (List.replicate 8 false)) = 0x00 := by decide
  refine ⟨?owrst, ?owrbit, ?owrbyte, fun v => ?owwbit, fun b => ?owwbyte⟩
  case owrst =>
    have he := exec_owrst_quiet hq hu
    rw [hlow] at he
    exact ⟨_, he, rfl, rfl, rfl, rfl, duration_resetCycle s.cfg false⟩
  case owrbit =>
    have he := exec_owrbit_quiet hq hu
    rw [hlow] at he
    exact ⟨_, he, rfl, rfl, rfl, rfl, duration_readSlot s.cfg false⟩
  case owrbyte =>
    obtain ⟨b, he⟩ := exec_owrbyte_quiet hq hu
    rw [hlows] at he
    exact ⟨_, _, he, rfl, rfl, hzero, rfl, rfl, duration_readSlots s.cfg (List.replicate 8 false)⟩
  case owwbit => exact ⟨_, _, exec_owwbit_quiet hq hu v, rfl, rfl, rfl, rfl, fun hwf => duration_writeSlot hwf _⟩
  case owwbyte => exact ⟨_, _, exec_owwbyte_quiet hq hu b, rfl, rfl, rfl, rfl, fun hwf => duration_writeSlots hwf (busBits b)⟩

end Sys2Proof.Machine

namespace Sys2Proof.Machine

/-! ## The first `DriveLow()` under `WEDGE_HANGS` -/

/-- The lines of a byte operation's pseudocode that come before its first `DriveLow()` (R124, R126). -/
def Prim.loadsByte (p : Prim) : Prop := p = .loadSr ∨ p = .clearSr

/-- Where the first `DriveLow()` of a bus operation stands: at its very beginning, or after the register move of a byte operation; and
there is no second one (R121, R124, R126). -/
theorem progOf_busOp {i : Instr} (hi : isBusOp i = true) (c : Cfg) :
    ∃ ps, .driveFirst ∉ ps ∧
      ((firstDrive i = 0 ∧ progOf c i = .driveFirst :: ps) ∨
        (firstDrive i = 1 ∧ ∃ p : Prim, p.loadsByte ∧ progOf c i = p :: .driveFirst :: ps)) := by
  have hopen := progOf_opensOnce c i
  cases i with
  | owrst | owwbit _ | owrbit => exact ⟨_, hopen, .inl ⟨rfl, rfl⟩⟩
  | owwbyte _ => exact ⟨_, hopen, .inr ⟨rfl, _, .inl rfl, rfl⟩⟩
  | owrbyte => exact ⟨_, hopen, .inr ⟨rfl, _, .inr rfl, rfl⟩⟩
  | _ => cases hi

/-- Loading `SR` and `BITCNT` changes nothing else but `STEP` (R124, R126). -/
theorem advance_loadsByte {p : Prim} (hp : p.loadsByte) (s : State) :
    ∃ q c, advance s p = { s with sr := q, bitcnt := c, stp := s.stp + 1 } := by
  obtain rfl | rfl := hp <;> exact ⟨_, _, rfl⟩

theorem ne_of_loadsByte {p : Prim} (hp : p.loadsByte) : p ≠ .finish ∧ p ≠ .driveFirst := by
  obtain rfl | rfl := hp <;> decide

/-- A bus operation on a line that is not usable is stuck at its first `DriveLow()`, the byte loaded where there is one (R133). -/
theorem exec_stuck {i : Instr} (hi : isBusOp i = true) {s : State} (hq : s.quiet = true) (hu : s.lineUsable = false) :
    ∃ n q c, exec i s = .next { s.questioned with
      opc := opcOf i, imm := immOf i, stp := n, sr := q, bitcnt := c, busy := true, hung := true } := by
  have hr := started_running hq i
  rw [exec_eq]
  obtain ⟨ps, -, ⟨-, hprog⟩ | ⟨-, p, hp, hprog⟩⟩ := progOf_busOp hi s.cfg
  · rw [hprog, runPrims_stuck hr hu]
    exact ⟨_, _, _, rfl⟩
  · obtain ⟨hfinish, hfirst⟩ := ne_of_loadsByte hp
    have hr' := advance_running hr hfinish
    obtain ⟨q, c, hload⟩ := advance_loadsByte hp (s.started i)
    rw [hprog, runPrims_quiet_cons hr (not_sticks_of_ne hfirst _)]
    rw [hload] at hr' ⊢
    rw [runPrims_stuck hr' hu]
    exact ⟨_, _, _, rfl⟩

/-- Nothing is due on a quiet block: its next input waits for `BUSY = 0`. -/
theorem noneDue_of_quiet {s : State} (hq : s.quiet = true) : s.noneDue := by
  intro e he
  obtain ⟨rest, hi⟩ := List.head?_eq_some_iff.1 he
  have ha : e.after = none := by simpa [State.quiet, hi] using hq
  simp [State.due, ha]

/-- A stuck sequencer on which nothing is due has no step (R133). -/
theorem step_stuck {s : State} (hb : s.busy = true) (hh : s.hung = true) (hd : s.noneDue) : step s = .fault .busWedged := by
  rw [step_busy hb, tick_hung hd hh]

/-- A stuck sequencer steps only by letting an input land (R133). -/
theorem step_hung {s t : State} (hb : s.busy = true) (hh : s.hung = true) (h : step s = .next t) :
    ∃ e rest, s.inputs = e :: rest ∧ t = ({ s with inputs := rest } : State).accept e.input := by
  rcases step_cases h with ⟨hb', _⟩ | ⟨hb', _⟩ | ⟨hb', _⟩ | ⟨_, e, rest, hi, _, ht⟩ | ⟨_, _, hh', _⟩
  case inr.inr.inr.inl => exact ⟨e, rest, hi, ht⟩
  case inr.inr.inr.inr => rw [hh] at hh'; cases hh'
  all_goals rw [hb] at hb'; cases hb'

/-- Where an input lands, it and no other has landed. -/
theorem landed_accept {s : State} {e : Arrival} {rest : List Arrival} (h : s.inputs = e :: rest) (x : Input) :
    landed s (({ s with inputs := rest } : State).accept x) = [e] := by
  simp [landed, accept_inputs, h]

/-- Settles O29: at its first `DriveLow()` the operation is stuck, and no input but a reset frees it. -/
theorem wedgedLineHangsWhereConfigured : Obligations.WedgedLineHangsWhereConfigured := by
  constructor
  · intro i s hi hq hw hlow
    obtain ⟨n, q, c, he⟩ := exec_stuck hi hq (by simp [State.lineUsable, hw, hlow])
    refine ⟨_, n, q, c, he, by simp [State.questioned, hw], ?_⟩
    exact step_stuck rfl rfl (noneDue_of_quiet (by exact hq))
  · intro s t hb hh hstep hr
    obtain ⟨e, rest, hi, rfl⟩ := step_hung hb hh hstep
    have hne : e.input ≠ .reset := by simpa [landed_accept hi, noReset] using hr
    rcases accept_busy (s := { s with inputs := rest }) hb e.input with
      ⟨_, _, _, he⟩ | ⟨_, _, he⟩ | ⟨hreset, _⟩ | ⟨_, _, he⟩ | ⟨_, _, he⟩
    case inr.inr.inl => exact absurd hreset hne
    all_goals rw [he]; exact ⟨hb, hh, rfl, rfl, rfl, rfl, rfl⟩

/-! ## The line up to the first `DriveLow()` and after it -/

/-- Only a first `DriveLow()` makes the sequencer stuck (R133). -/
theorem runPrims_not_hung {ps : List Prim} (hps : .driveFirst ∉ ps) {s : State} (h : s.hung = false) : (runPrims ps s).hung = false := by
  refine runPrims_induction (P := fun u => u.hung = false) ps (fun u e rest hu _ _ _ => ?_) (fun u p hp hu _ _ => ?_) s h
  · exact accept_not_hung (s := { u with inputs := rest }) hu e.input
  · have hne : p ≠ .driveFirst := fun hf => hps (hf ▸ hp)
    rw [primStep_moves (not_sticks_of_ne hne u)]
    exact (execPrim_hung p u).trans hu

/-- Whether an operation is stuck is decided at its first `DriveLow()`, by the line once the inputs that are due have landed (R133). -/
theorem runPrims_driveFirst_hung {ps : List Prim} (hps : .driveFirst ∉ ps) {s : State} (hh : s.hung = false)
    (hb : (landDue s.inputs s).busy = true) :
    (runPrims (.driveFirst :: ps) s).hung = (landDue s.inputs s).sticks .driveFirst := by
  rw [runPrims_cons hh, if_pos hb]
  rcases primStep_cases .driveFirst (landDue s.inputs s) with ⟨hs, he⟩ | ⟨hs, he⟩ <;> rw [hs]
  · rw [he, runPrims_hung rfl]
  · refine runPrims_not_hung hps ?_
    rw [he]
    exact (execPrim_hung _ _).trans (landDue_not_hung _ hh)

/-- A device that seizes or frees the line now, and nothing after it, lands between two primitives. -/
theorem landDue_hold {s : State} {b : Bool} {rest : List Arrival} (hb : s.busy = true)
    (hi : s.inputs = ⟨some 0, .hold b⟩ :: rest) (hq : State.quiet { s with inputs := rest } = true) :
    landDue s.inputs s = { s with inputs := rest, held := b } := by
  rw [hi]
  exact (if_pos ⟨hb, rfl⟩).trans (landDue_quiet (s := { s with inputs := rest, held := b }) hq)

/-- An input that waits for a primitive does not land before it. -/
theorem landDue_waiting {s : State} {n : Nat} {x : Input} {rest : List Arrival} (hi : s.inputs = ⟨some (n + 1), x⟩ :: rest) :
    landDue s.inputs s = s := by
  simp [hi, landDue]

/-- Under `WEDGE_HANGS` a first `DriveLow()` sticks on a line that the environment holds low (R133). -/
theorem sticks_driveFirst {s : State} (hw : s.cfg.wedgeHangs = true) : s.sticks .driveFirst = !s.envLevel := by
  simp [State.sticks, hw]

/-- At a first `DriveLow()` around which nothing lands, the line as it is decides (R133). -/
theorem runPrims_driveFirst_hung_of_quiet {ps : List Prim} (hps : .driveFirst ∉ ps) {s : State} (hw : s.cfg.wedgeHangs = true)
    (h : s.Running) : (runPrims (.driveFirst :: ps) s).hung = !s.envLevel := by
  have hland := landDue_quiet h.quiet
  rw [runPrims_driveFirst_hung hps h.free (by rw [hland, h.busy]), hland, sticks_driveFirst hw]

/-- At a first `DriveLow()` a device that acts by then counts, and one that acts later does not (R133). -/
theorem runPrims_driveFirst_hung_of_hold {ps : List Prim} (hps : .driveFirst ∉ ps) {s : State} {n : Nat} {b : Bool} {rest : List Arrival}
    (hw : s.cfg.wedgeHangs = true) (hb : s.busy = true) (hh : s.hung = false) (hi : s.inputs = ⟨some n, .hold b⟩ :: rest)
    (hq : State.quiet { s with inputs := rest } = true) :
    (runPrims (.driveFirst :: ps) s).hung = !(State.envLevel { s with held := if n ≤ 0 then b else s.held }) := by
  cases n with
  | zero =>
    have hland := landDue_hold hb hi hq
    rw [runPrims_driveFirst_hung hps hh (by rw [hland]; exact hb), hland]
    exact sticks_driveFirst hw
  | succ n =>
    have hland := landDue_waiting hi
    rw [runPrims_driveFirst_hung hps hh (by rw [hland, hb]), hland]
    exact sticks_driveFirst hw

/-- After the register move of a byte operation the device has had one primitive more to act (R124, R126, R133). -/
theorem runPrims_loadsByte_hung_of_hold {p : Prim} (hp : p.loadsByte) {ps : List Prim} (hps : .driveFirst ∉ ps) {s : State}
    {n : Nat} {b : Bool} {rest : List Arrival} (hw : s.cfg.wedgeHangs = true) (hb : s.busy = true) (hh : s.hung = false)
    (hi : s.inputs = ⟨some n, .hold b⟩ :: rest) (hq : State.quiet { s with inputs := rest } = true) :
    (runPrims (p :: .driveFirst :: ps) s).hung = !(State.envLevel { s with held := if n ≤ 1 then b else s.held }) := by
  obtain ⟨-, hfirst⟩ := ne_of_loadsByte hp
  rw [runPrims_cons hh]
  cases n with
  | zero =>
    obtain ⟨q, c, hload⟩ := advance_loadsByte hp { s with inputs := rest, held := b }
    rw [landDue_hold hb hi hq, if_pos (by exact hb), primStep_quiet (by exact hq) (not_sticks_of_ne hfirst _), hload]
    exact runPrims_driveFirst_hung_of_quiet hps hw ⟨hq, hb, hh⟩
  | succ n =>
    obtain ⟨q, c, hload⟩ := advance_loadsByte hp s
    have hcount : (if n + 1 ≤ 1 then b else s.held) = if n ≤ 0 then b else s.held := by simp
    rw [landDue_waiting hi, if_pos hb, primStep_moves (not_sticks_of_ne hfirst _), hload, hi, hcount]
    exact runPrims_driveFirst_hung_of_hold hps hw hb hh rfl hq

/-- Settles O30: up to its first `DriveLow()` an operation leaves the line alone, and after it nothing is stuck. -/
theorem theLineAtTheFirstDriveLowDecides : Obligations.TheLineAtTheFirstDriveLowDecides := by
  intro i s n b rest hbus hw hi hq
  have hhung : (runPrims (progOf s.cfg i) (s.started i)).hung =
      !(State.envLevel { s with held := if n ≤ firstDrive i then b else s.held }) := by
    obtain ⟨ps, hps, ⟨hfirst, hprog⟩ | ⟨hfirst, p, hp, hprog⟩⟩ := progOf_busOp hbus s.cfg <;> rw [hfirst, hprog]
    · exact runPrims_driveFirst_hung_of_hold (s := s.started i) hps hw rfl rfl hi hq
    · exact runPrims_loadsByte_hung_of_hold (s := s.started i) hp hps hw rfl rfl hi hq
  refine ⟨_, exec_eq i s, fun hle => ?_, fun hlt => ?_⟩
  · rw [hhung, if_pos hle]
  · rw [hhung, if_neg (by omega)]

/-! ## What stops the machine -/

/-- An idle block always steps (R61). -/
theorem step_of_idle {s : State} (hb : s.busy = false) : ∃ t, step s = .next t := by
  cases hi : s.inputs with
  | nil => exact ⟨_, step_idle_nothing hb hi⟩
  | cons e rest =>
    cases hc : commandOf e.input with
    | none => exact ⟨_, step_idle_settled hb hi hc⟩
    | some i => exact ⟨_, (step_idle_command hb hi hc).trans (exec_eq i _)⟩

/-- An input that is due is the next one. -/
theorem due_of_not_noneDue {s : State} (h : ¬ s.noneDue) : ∃ e rest, s.inputs = e :: rest ∧ s.due e = true := by
  cases hi : s.inputs with
  | nil => simp [State.noneDue, hi] at h
  | cons e rest => exact ⟨e, rest, rfl, by simpa [State.noneDue, hi] using h⟩

/-- A busy block that stands at a primitive of its operation steps, or it is stuck and nothing is due (R42, R133). -/
theorem step_of_busy {s : State} (hb : s.busy = true) (hmid : s.stp < s.program.length) :
    (∃ t, step s = .next t) ∨ (s.hung = true ∧ step s = .fault .busWedged) := by
  rw [step_busy hb]
  by_cases hd : s.noneDue
  · cases hh : s.hung with
    | true => exact .inr ⟨rfl, tick_hung hd hh⟩
    | false => exact .inl ⟨_, tick_prim hd hh (List.getElem?_eq_getElem hmid)⟩
  · obtain ⟨e, rest, hi, he⟩ := due_of_not_noneDue hd
    exact .inl ⟨_, tick_due hi he⟩

/-- Settles O48: an idle block always steps, and a busy one that is not stuck stands at a primitive of its operation. -/
theorem onlyTheWedgeStopsTheMachine : Obligations.OnlyTheWedgeStopsTheMachine := by
  rintro s ⟨-, -, -, hmid⟩
  cases hb : s.busy with
  | false => exact .inl (step_of_idle hb)
  | true =>
    obtain ⟨⟨hlt, -, -⟩, hfree⟩ := hmid hb
    refine (step_of_busy hb hlt).imp_right fun ⟨hh, hstep⟩ => ?_
    obtain ⟨-, hw, -⟩ := hfree.resolve_left (by simp [hh])
    exact ⟨hw, hh, hstep⟩

end Sys2Proof.Machine

namespace Sys2Proof.Machine

/-! ## The conversions -/

/-- A conversion stores the sign of its numerator and the point position 1 (R34, R143, R146). -/
theorem storeScaled_fmt_eq_ite (n : Int) (s : State) : (s.storeScaled n).fmt = if n < 0 then 0x81 else 0x01 := by
  rw [storeScaled_fmt]
  by_cases hn : n < 0
  · rw [decide_eq_true hn, if_pos hn]; rfl
  · rw [decide_eq_false hn, if_neg hn]; rfl

/-- The scaled magnitude is stored without wrapping where it fits `MAG` (R15, R33). -/
theorem storeScaled_mag_toNat {n : Int} (h : n.natAbs / 8 < 2 ^ 32) (s : State) : (s.storeScaled n).mag.toNat = n.natAbs / 8 := by
  rw [storeScaled_mag, BitVec.toNat_ofNat, Nat.mod_eq_of_lt h]

/-- `CVT1` scales by 5 eighths, and gives at most 20480 (R143, R160). -/
theorem cvt1_numerator (v : Half) : (5 * sext v).natAbs / 8 = 5 * v.toInt.natAbs / 8 ∧ (5 * sext v).natAbs / 8 ≤ 20480 := by
  have hr := sext_bounds v
  rw [sext_eq_toInt] at hr ⊢
  omega

/-- `CVT2` stays below 1 036 865 for every offset that is allowed (R8, R160). -/
theorem cvt2_numerator_le {c : Cfg} (hc : c.wf = true) (v : Half) : (9 * sext v + 80 * c.unit2Offset).natAbs / 8 ≤ 1036864 := by
  have hr := sext_bounds v
  obtain ⟨-, -, -, hlo, hhi, -⟩ := of_decide_eq_true hc
  omega

/-- `CVT1` on a quiet block (R143). -/
theorem exec_cvt1_quiet {s : State} (h : s.quiet = true) :
    exec .cvt1 s = .next { s.storeScaled (5 * sext s.raw) with opc := 0x7, imm := 0, busy := false, hung := false, stp := 2 } := by
  rw [exec_eq]
  exact congrArg _ (runPrims_straight_finish (ps := [.convert1]) (by rfl) (started_running h .cvt1))

/-- `CVT2` on a quiet block (R146). -/
theorem exec_cvt2_quiet {s : State} (h : s.quiet = true) :
    exec .cvt2 s = .next { s.storeScaled (9 * sext s.raw + 80 * s.cfg.unit2Offset) with
      opc := 0x8, imm := 0, busy := false, hung := false, stp := 2 } := by
  rw [exec_eq]
  exact congrArg _ (runPrims_straight_finish (ps := [.convert2]) (by rfl) (started_running h .cvt2))

/-- Settles O31: `CVT1` stores 5 eighths of the Reading, which fit `MAG`, and 5 keeps the sign. -/
theorem cvt1ScalesTheReading : Obligations.Cvt1ScalesTheReading := by
  refine ⟨by decide, fun s hq => ?_⟩
  obtain ⟨hscale, hle⟩ := cvt1_numerator s.raw
  have hmag := storeScaled_mag_toNat (n := 5 * sext s.raw) (by omega) s
  have hsign : 5 * sext s.raw < 0 ↔ s.raw.toInt < 0 := by rw [sext_eq_toInt]; omega
  refine ⟨_, _, _, hmag.trans hscale, hmag.trans_le hle, ?_, exec_cvt1_quiet hq⟩
  simp only [storeScaled_fmt_eq_ite, hsign]

/-- Settles O32: `CVT2` stores the eighths of its numerator, which fit `MAG` for every offset that is allowed. -/
theorem cvt2ScalesAndOffsetsTheReading : Obligations.Cvt2ScalesAndOffsetsTheReading := by
  refine ⟨by decide, fun s hc hq => ?_⟩
  have hle := cvt2_numerator_le hc s.raw
  have hmag := storeScaled_mag_toNat (n := 9 * sext s.raw + 80 * s.cfg.unit2Offset) (by omega) s
  rw [← sext_eq_toInt]
  exact ⟨_, _, _, hmag, storeScaled_fmt_eq_ite _ s, exec_cvt2_quiet hq⟩

/-! ## The first significant digit -/

/-- A position above the magnitude's digits holds a zero (R68). -/
theorem decimalDigit_eq_zero {m p : Nat} (h : m < 10 ^ p) : decimalDigit m p = 0 := by
  rw [decimalDigit, Nat.div_eq_of_lt h]

/-- The leading digit of a magnitude is not zero (R68). -/
theorem decimalDigit_ne_zero {m p : Nat} (hlo : 10 ^ p ≤ m) (hhi : m < 10 ^ (p + 1)) : decimalDigit m p ≠ 0 := by
  have hpos : 0 < m / 10 ^ p := Nat.div_pos hlo (by positivity)
  have hlt : m / 10 ^ p < 10 := Nat.div_lt_of_lt_mul (by rwa [← pow_succ])
  rw [decimalDigit, Nat.mod_eq_of_lt hlt]
  omega

/-- A position above the magnitude's digits is blanked where it carries no point (R152). -/
theorem blankable_of_lt {s : State} {p : Nat} (hm : s.mag.toNat < 10 ^ p) (hp : p ≠ dpOf s.fmt) : s.blankable p :=
  ⟨decimalDigit_eq_zero hm, .inr fun h => hp h.2⟩

/-- With the point on no position above them, the magnitude's digits are the significant ones, and a magnitude of 0 has one (R152, R154). -/
theorem firstDigit_of_digits {s : State} {f : Nat} (hf : f ≤ 7) (hlo : f = 0 ∨ 10 ^ f ≤ s.mag.toNat) (hhi : s.mag.toNat < 10 ^ (f + 1))
    (hdp : dpOf s.fmt ≤ f) : s.firstDigit f := by
  refine ⟨hf, hlo.imp_right fun h hb => decimalDigit_ne_zero h hhi hb.1, fun p hp _ => ?_⟩
  exact blankable_of_lt (hhi.trans_le (Nat.pow_le_pow_right (by decide) hp)) (by omega)

/-- With the default switch a point at position 7 makes that position significant, whatever its digit (R152, R156). -/
theorem firstDigit_seven_of_point {s : State} (hdp : dpOf s.fmt = 7) (hz : s.cfg.blankDpZero = false) : s.firstDigit 7 := by
  refine ⟨le_rfl, .inr fun hb => ?_, fun p hp hp7 => by omega⟩
  obtain ⟨-, hz' | hpoint⟩ := hb
  · rw [hz] at hz'; cases hz'
  · exact hpoint ⟨by omega, hdp.symm⟩

/-- Position 7 is not significant for a magnitude of at most seven digits, where it carries no point (R156). -/
theorem not_firstDigit_seven {s : State} (hm : s.mag.toNat < 10000000) (hdp : dpOf s.fmt ≠ 7) : ¬ s.firstDigit 7 := by
  rintro ⟨-, h | h, -⟩
  · cases h
  · exact h (blankable_of_lt hm hdp.symm)

theorem not_overflows_of_lt {s : State} (hm : s.mag.toNat < 10000000) (hdp : dpOf s.fmt ≠ 7) : ¬ s.overflows := by
  rintro (h | ⟨-, h⟩)
  · omega
  · exact not_firstDigit_seven hm hdp h

/-- With the sign a magnitude of eight digits or more overflows: the first of eight digits stands at position 7 (R156). -/
theorem overflows_of_le {s : State} (hs : sgnOf s.fmt = true) (hm : 10000000 ≤ s.mag.toNat) : s.overflows := by
  rcases Nat.lt_or_ge 99999999 s.mag.toNat with h | h
  · exact .inl h
  · have hdp := dpOf_lt s.fmt
    exact .inr ⟨hs, firstDigit_of_digits le_rfl (.inr hm) (by omega) (by omega)⟩

/-! ## `ENC` on a quiet block -/

/-- The register moves of `ENC` on a quiet block (R148). -/
theorem exec_enc_quiet {s : State} (h : s.quiet = true) :
    exec .enc s = .next { (s.started .enc).encodeGlyphs with busy := false, stp := 2 } := by
  rw [exec_eq]
  refine congrArg _ ((runPrims_straight_finish (ps := [.encode]) (by rfl) (started_running h .enc)).trans ?_)
  rfl

/-- `ENC` on the overflow condition (R156). -/
theorem exec_enc_of_overflows {s : State} (h : s.quiet = true) (ho : s.overflows) :
    exec .enc s = .next { s with
      opc := 0x9, imm := 0, busy := false, hung := false, stp := 2, seq := freeRow s.draws, bcd := 0, ovf := true,
      draws := s.draws + 8 } := by
  rw [exec_enc_quiet h]
  rcases encodeGlyphs_eq (scan_firstDigit (s.started .enc)) with ⟨-, he⟩ | ⟨hno, -⟩
  · rw [he]; rfl
  · exact absurd ho hno

/-- `ENC` outside the overflow condition (R157). -/
theorem exec_enc_of_firstDigit {s : State} {f : Nat} (h : s.quiet = true) (ho : ¬ s.overflows) (hf : s.firstDigit f) :
    exec .enc s = .next { s with
      opc := 0x9, imm := 0, busy := false, hung := false, stp := 2,
      seq := glyphRow s.cfg (dpOf s.fmt) (sgnOf s.fmt) (packDigits s.mag.toNat).1 f, bcd := 0 } := by
  rw [exec_enc_quiet h]
  rcases encodeGlyphs_eq (s := s.started .enc) hf with ⟨hov, -⟩ | ⟨-, he⟩
  · exact absurd hov ho
  · rw [he]; rfl

/-- `ENC` raises `OVF` on the overflow condition and on no other input (R156, R157). -/
theorem exec_enc_ovf {s t : State} (h : s.quiet = true) (he : exec .enc s = .next t) : t.ovf = true ↔ s.ovf = true ∨ s.overflows := by
  by_cases ho : s.overflows
  · rw [exec_enc_of_overflows h ho] at he
    obtain rfl := Host.Outcome.next.inj he
    simp [ho]
  · rw [exec_enc_of_firstDigit h ho (scan_firstDigit s)] at he
    obtain rfl := Host.Outcome.next.inj he
    simp [ho]

/-- Up to the first significant position stand the decimal digits, the one at `DP` with its point (R150, R151). -/
theorem glyphRow_digit (c : Cfg) (dp : Nat) (sgn : Bool) (m : Nat) {f : Nat} {p : Fin 8} (hp : p.val ≤ f) :
    (glyphRow c dp sgn (packDigits m).1 f)[p] = glyphAt c (decimalDigit m p.val + (if dp ≠ 0 ∧ p.val = dp then 10 else 0)) := by
  simp only [glyphRow, Fin.getElem_fin, Vector.getElem_ofFn, if_pos hp, digitGlyph, nibble_packDigits m p.val p.isLt]
  split <;> rfl

/-- Above the first significant position stand a minus sign, where the flag is set, and blanks (R152, R153). -/
theorem glyphRow_above (c : Cfg) (dp : Nat) (sgn : Bool) (bcd : Word) {f : Nat} {p : Fin 8} (hp : f < p.val) :
    (glyphRow c dp sgn bcd f)[p] = glyphAt c (if sgn = true ∧ p.val = f + 1 then 20 else 21) := by
  simp only [glyphRow, Fin.getElem_fin, Vector.getElem_ofFn, if_neg hp.not_ge]
  split <;> rfl

/-- Settles O33: the scan finds the first significant digit, and the row written is read off position by position. -/
theorem encShowsTheDecimalDigits : Obligations.EncShowsTheDecimalDigits := by
  refine ⟨by decide, fun s hq ho => ?_⟩
  obtain ⟨f, hf⟩ : ∃ f, s.firstDigit f := ⟨_, scan_firstDigit s⟩
  refine ⟨f, _, _, hf, fun hs => ?_, fun p => ⟨glyphRow_digit _ _ _ _, glyphRow_above _ _ _ _⟩, exec_enc_of_firstDigit hq ho hf⟩
  have hle : f ≤ 7 := hf.1
  have hne : f ≠ 7 := fun h => ho (.inr ⟨hs, h ▸ hf⟩)
  omega

/-- Settles O34, by what `ENC` does on the condition and outside it, and by where the first significant digit stands. -/
theorem encOverflowIsAsWritten : Obligations.EncOverflowIsAsWritten := by
  intro s hq
  refine ⟨fun ho => ⟨_, _, _, exec_enc_of_overflows hq ho⟩, fun t he => exec_enc_ovf hq he, overflows_of_le,
    fun _ hdp hm => not_overflows_of_lt hm hdp, fun hs hdp hz => .inr ⟨hs, firstDigit_seven_of_point hdp hz⟩, fun hs => ?_⟩
  simp [State.overflows, hs]

/-- Either conversion on a quiet block stores a magnitude of at most seven digits, with the point at position 1 (R160). -/
theorem exec_conversion {i : Instr} {s : State} (hi : i = .cvt1 ∨ i = .cvt2) (hc : s.cfg.wf = true) (hq : s.quiet = true) :
    ∃ t, exec i s = .next t ∧ t.quiet = true ∧ t.ovf = s.ovf ∧ t.mag.toNat ≤ 1036864 ∧ dpOf t.fmt = 1 := by
  rcases hi with rfl | rfl
  · obtain ⟨-, hle⟩ := cvt1_numerator s.raw
    refine ⟨_, exec_cvt1_quiet hq, hq, rfl, ?_, dpOf_fmtValue _ _⟩
    exact (storeScaled_mag_toNat (by omega) s).trans_le (by omega)
  · have hle := cvt2_numerator_le hc s.raw
    exact ⟨_, exec_cvt2_quiet hq, hq, rfl, (storeScaled_mag_toNat (by omega) s).trans_le hle, dpOf_fmtValue _ _⟩

/-- Settles O36: what a conversion stores is outside the overflow condition. -/
theorem encAfterAConversionNeverOverflows : Obligations.EncAfterAConversionNeverOverflows := by
  intro i s t u hi hc hq ht hu
  obtain ⟨t', ht', hq', hovf, hmag, hdp⟩ := exec_conversion hi hc hq
  obtain rfl := Host.Outcome.next.inj (ht.symm.trans ht')
  have hno : ¬ t.overflows := not_overflows_of_lt (by omega) (by omega)
  rw [exec_enc_of_firstDigit hq' hno (scan_firstDigit t)] at hu
  obtain rfl := Host.Outcome.next.inj hu
  exact hovf

/-- `ENC` on a magnitude of `f + 1` digits, at most seven, with no point above them (R148). -/
theorem exec_enc_of_digits {s : State} (h : s.quiet = true) {m : Word} {x : Byte} {f : Nat} (hf : f ≤ 6)
    (hlo : f = 0 ∨ 10 ^ f ≤ m.toNat) (hhi : m.toNat < 10 ^ (f + 1)) (hdp : dpOf x ≤ f) :
    ∃ t, exec .enc { s with mag := m, fmt := x } = .next t ∧
      t.seq = glyphRow s.cfg (dpOf x) (sgnOf x) (packDigits m.toNat).1 f := by
  have hm : m.toNat < 10 ^ 7 := hhi.trans_le (Nat.pow_le_pow_right (by decide) (by omega))
  have hno : ¬ ({ s with mag := m, fmt := x } : State).overflows := not_overflows_of_lt hm (hdp.trans_lt (by omega)).ne
  exact ⟨_, exec_enc_of_firstDigit h hno (firstDigit_of_digits (by omega) hlo hhi hdp), rfl⟩

/-- Settles O35: the first significant digit is the leading one of the magnitude, and the row is read off. -/
theorem encExamplesOfTheSource : Obligations.EncExamplesOfTheSource := by
  intro g start
  refine ⟨?zero, ?signed, ?fourDigits⟩
  case zero => exact exec_enc_of_digits (s := start) rfl (f := 0) (by decide) (.inl rfl) (by decide) (by decide)
  case signed => exact exec_enc_of_digits (s := start) rfl (f := 2) (by decide) (.inr (by decide)) (by decide) (by decide)
  case fourDigits => exact exec_enc_of_digits (s := start) rfl (f := 3) (by decide) (.inr (by decide)) (by decide) (by decide)

/-! ## `DPUT` -/

/-- Each `Put` appends its pair to the sink trace and leaves `SEQ` alone (R75). -/
theorem puts_straight (l : List (Fin 8)) : ∀ s : State, (l.map Prim.put).foldl advance s =
    { s with sink := s.sink ++ l.map (fun p => ⟨p, s.seq[p]⟩), stp := s.stp + l.length } := by
  induction l with
  | nil => intro s; simp
  | cons p l ih =>
    intro s
    rw [List.map_cons, List.foldl_cons, ih]
    simp [advance, execPrim, State.put, Nat.add_assoc, Nat.add_comm 1]

/-- `DPUT` on a quiet block (R162). -/
theorem exec_dput_quiet {s : State} (h : s.quiet = true) :
    exec .dput s = .next { s with
      opc := 0xA, imm := 0, busy := false, hung := false, stp := 9,
      sink := s.sink ++ (List.finRange 8).map fun p => ⟨p, s.seq[p]⟩ } := by
  rw [exec_eq]
  refine congrArg _ ?_
  calc runPrims ((List.finRange 8).map .put ++ [.finish]) (s.started .dput)
    _ = _ := runPrims_straight_finish (by rfl) (started_running h .dput)
    _ = _ := by rw [puts_straight]; rfl

/-- Settles O37: the puts are a straight run of primitives, in ascending position. -/
theorem dputPushesTheSequence : Obligations.DputPushesTheSequence :=
  ⟨by decide, fun _ hq => ⟨_, exec_dput_quiet hq⟩⟩

end Sys2Proof.Machine

namespace Sys2Proof.Machine

/-! ## Host accesses that land in an operation -/

/-- `s` with no input to come, and with `c` for `CERR` and `g` for what the host has read: these are all that a host access to a busy
block can reach (R30, R62). -/
def State.leftAlone (s : State) (c : Bool) (g : List ReadBack) : State := { s with inputs := [], cerr := c, got := g }

@[simp] theorem leftAlone_busy (s : State) (c : Bool) (g : List ReadBack) : (s.leftAlone c g).busy = s.busy := rfl

/-- The inputs still to come are all the host's own. -/
def State.onlyHost (s : State) : Prop := ∀ e ∈ s.inputs, isHostAccess e.input = true

theorem State.onlyHost.head {s : State} {e : Arrival} {rest : List Arrival} (h : s.onlyHost) (hi : s.inputs = e :: rest) :
    isHostAccess e.input = true := h e (by simp [hi])

theorem State.onlyHost.accept {s : State} {e : Arrival} {rest : List Arrival} (h : s.onlyHost) (hi : s.inputs = e :: rest) :
    (({ s with inputs := rest } : State).accept e.input).onlyHost := forall_accept (P := (isHostAccess · = true)) hi h

theorem State.onlyHost.primStep {s : State} (h : s.onlyHost) (p : Prim) : (Machine.primStep p s).onlyHost := by
  rcases primStep_cases p s with ⟨-, he⟩ | ⟨-, he⟩ <;> rw [he]
  · exact h
  · exact forall_countDown (P := (isHostAccess · = true)) h

/-- A host access reaches nothing else in a busy block (R30, R62). -/
theorem accept_leftAlone {s : State} (hb : s.busy = true) {x : Input} (hx : isHostAccess x = true) (c : Bool) (g : List ReadBack) :
    (s.accept x).leftAlone c g = s.leftAlone c g := by
  cases x with
  | write a v => simp only [State.accept, hostWrite_of_busy hb]; rfl
  | reset | hold => simp [isHostAccess] at hx
  | read | delay => rfl

/-- Of the host accesses to a busy block it is the writes that set `CERR` (R62, R174). -/
theorem accept_cerr {s : State} (hb : s.busy = true) {x : Input} (hx : isHostAccess x = true) :
    (s.accept x).cerr = (s.cerr || isHostWrite x) := by
  cases x with
  | write a v => simp [State.accept, hostWrite_of_busy hb, isHostWrite]
  | reset | hold => simp [isHostAccess] at hx
  | read | delay => simp [State.accept, isHostWrite]

/-- The host accesses that land between two primitives leave the rest of the block alone (R174). -/
theorem landDue_leftAlone {s : State} (h : s.onlyHost) (c : Bool) (g : List ReadBack) :
    (landDue s.inputs s).onlyHost ∧ (landDue s.inputs s).leftAlone c g = s.leftAlone c g := by
  refine landDue_induction (P := fun u => u.onlyHost ∧ u.leftAlone c g = s.leftAlone c g) ?_ s.inputs s rfl ⟨h, rfl⟩
  rintro u e rest ⟨hu, heq⟩ hb hi -
  exact ⟨hu.accept hi, (accept_leftAlone (s := { u with inputs := rest }) hb (hu.head hi) c g).trans heq⟩

/-- The inputs to come, `CERR` and what the host has read steer no primitive, nor whether the sequencer is stuck at it (R133, R174). -/
theorem primStep_leftAlone (p : Prim) (s : State) (c : Bool) (g : List ReadBack) :
    primStep p (s.leftAlone c g) = (primStep p s).leftAlone c g := by
  have hs : (s.leftAlone c g).sticks p = s.sticks p := rfl
  rcases Bool.eq_false_or_eq_true (s.sticks p) with h | h
  · unfold primStep; rw [if_pos (hs.trans h), if_pos h]; rfl
  · rw [primStep_moves (hs.trans h), primStep_moves h, State.leftAlone, advance, execPrim_hostSide]
    rfl

/-- An operation in which host accesses land runs as it does when it is left alone (R174). -/
theorem runPrims_leftAlone (c : Bool) (g : List ReadBack) (ps : List Prim) : ∀ {s : State}, s.onlyHost →
    runPrims ps (s.leftAlone c g) = (runPrims ps s).leftAlone c g := by
  induction ps with
  | nil => intro s _; rfl
  | cons p ps ih =>
    intro s h
    rcases Bool.eq_false_or_eq_true s.hung with hh | hh
    · rw [runPrims_hung hh, runPrims_hung (by exact hh)]
    · obtain ⟨hl, heq⟩ := landDue_leftAlone h c g
      rw [runPrims_cons hh, runPrims_cons (by exact hh), landDue_quiet (by rfl), ← heq, leftAlone_busy]
      split
      · rw [primStep_leftAlone, ih (hl.primStep p)]
      · rfl

/-- Settles O42: induction over the primitives shows that the run is that of the block left alone, and induction over the inputs that have
landed that the writes among them set `CERR` and nothing else does. -/
theorem hostAccessesDoNotDisturbAnOperation : Obligations.HostAccessesDoNotDisturbAnOperation := by
  intro i s t u hhost ht hu
  constructor
  · have hrun : runPrims (progOf s.cfg i) ((s.started i).leftAlone s.cerr s.got) = u := by
      rw [exec_eq] at hu; cases hu; rfl
    rw [exec_eq] at ht
    cases ht
    rw [← hrun, runPrims_leftAlone _ _ _ (by exact hhost)]
    rfl
  · have hland : t.onlyHost ∧ t.cerr = (s.cerr || ((landed s t).map Arrival.input).any isHostWrite) := by
      refine exec_landed_induction (P := fun l v => v.onlyHost ∧ v.cerr = (s.cerr || l.any isHostWrite)) ht
        ⟨hhost, (Bool.or_false _).symm⟩ ?_ ?_
      · rintro l v e rest ⟨hv, hc⟩ hb hi -
        have hcerr := accept_cerr (s := { v with inputs := rest }) hb (hv.head hi)
        exact ⟨hv.accept hi, hcerr.trans (by simp [hc, Bool.or_assoc])⟩
      · rintro l v p - ⟨hv, hc⟩ - -
        obtain ⟨-, hcerr, -⟩ := primStep_frame p v
        exact ⟨hv.primStep p, hcerr.trans hc⟩
    rw [hland.2, List.any_map]
    rfl

/-! ## What the bus environment can reach -/

/-- `s` without what the bus environment's answers and holds can reach: the line as it is and was, the registers filled from samples, and
what the host has read. -/
def State.offBus (s : State) : State :=
  { s with levels := [], held := false, lt := [], smp := false, sr := 0, pres := false, rbit := false, rdata := 0, got := [] }

@[simp] theorem offBus_cfg (s : State) : s.offBus.cfg = s.cfg := rfl
@[simp] theorem offBus_busy (s : State) : s.offBus.busy = s.busy := rfl
@[simp] theorem offBus_hung (s : State) : s.offBus.hung = s.hung := rfl
@[simp] theorem offBus_inputs (s : State) : s.offBus.inputs = s.inputs := rfl
@[simp] theorem offBus_ovf (s : State) : s.offBus.ovf = s.ovf := rfl
@[simp] theorem offBus_ill (s : State) : s.offBus.ill = s.ill := rfl
@[simp] theorem offBus_cerr (s : State) : s.offBus.cerr = s.cerr := rfl

/-- The bus environment reaches nothing else through a primitive. -/
theorem execPrim_offBus (p : Prim) (s : State) : (execPrim p s).offBus = (execPrim p s.offBus).offBus := by
  cases p with
  | encode =>
    simp only [execPrim, State.encodeGlyphs]
    split
    · next h => rw [if_pos (by exact h)]; rfl
    · next h => rw [if_neg (by exact h)]; rfl
  | _ => rfl

/-- Where `WEDGE_HANGS` is false it reaches nothing else through a step of the sequencer (R133). -/
theorem primStep_offBus {s t : State} (hw : s.cfg.wedgeHangs = false) (h : s.offBus = t.offBus) (p : Prim) :
    (primStep p s).offBus = (primStep p t).offBus := by
  have hcfg : s.cfg = t.cfg := by simpa using congrArg State.cfg h
  have hprim : (execPrim p s).offBus = (execPrim p t).offBus := by rw [execPrim_offBus, h, ← execPrim_offBus]
  have hs : s.sticks p = false := not_sticks_of_usable (lineUsable_of_not_wedgeHangs hw) p
  have ht : t.sticks p = false := not_sticks_of_usable (lineUsable_of_not_wedgeHangs (hcfg ▸ hw)) p
  unfold primStep
  rw [if_neg (by simp [hs]), if_neg (by simp [ht])]
  exact (congrArg (fun v : State => { v with stp := v.stp + 1, inputs := countDown v.inputs }) hprim :)

/-- Nor does it through an input that lands in an operation. -/
theorem accept_offBus {s t : State} (h : s.offBus = t.offBus) (hb : s.busy = true) (x : Input) :
    (s.accept x).offBus = (t.accept x).offBus := by
  have hbt : t.busy = true := by simpa [hb] using (congrArg State.busy h).symm
  cases x with
  | write a v =>
    simp only [State.accept, hostWrite_of_busy hb, hostWrite_of_busy hbt]
    exact congrArg (fun v : State => { v with cerr := true }) h
  | reset => exact (congrArg (fun v : State => v.resetBlock.offBus) h :)
  | read | hold | delay => exact h

/-- Nor through all the inputs that land between two primitives. -/
theorem landDue_offBus (l : List Arrival) : ∀ {s t : State}, s.offBus = t.offBus →
    (landDue l s).offBus = (landDue l t).offBus := by
  induction l with
  | nil => intro s t h; exact h
  | cons e rest ih =>
    intro s t h
    have hbusy : s.busy = t.busy := by simpa using congrArg State.busy h
    by_cases hd : s.busy = true ∧ e.after = some 0
    · rw [landDue, landDue, if_pos hd, if_pos (hbusy ▸ hd)]
      have hrest : ({ s with inputs := rest } : State).offBus = ({ t with inputs := rest } : State).offBus :=
        (congrArg (fun v : State => { v with inputs := rest }) h :)
      exact ih (accept_offBus hrest hd.1 e.input)
    · rwa [landDue, landDue, if_neg hd, if_neg (hbusy ▸ hd)]

theorem landDue_cfg (s : State) : (landDue s.inputs s).cfg = s.cfg :=
  landDue_induction (P := fun u => u.cfg = s.cfg) (fun _ _ _ hu _ _ _ => (accept_cfg _ _).trans hu) s.inputs s rfl rfl

/-- Where `WEDGE_HANGS` is false, runs that start alike but for what the bus environment can reach end so. -/
theorem runPrims_offBus (ps : List Prim) : ∀ {s t : State}, s.cfg.wedgeHangs = false → s.offBus = t.offBus →
    (runPrims ps s).offBus = (runPrims ps t).offBus := by
  induction ps with
  | nil => intro s t _ h; exact h
  | cons p ps ih =>
    intro s t hw h
    have hhung : s.hung = t.hung := by simpa using congrArg State.hung h
    rcases Bool.eq_false_or_eq_true t.hung with hh | hh
    · rwa [runPrims_hung hh, runPrims_hung (hhung.trans hh)]
    · have hinputs : s.inputs = t.inputs := by simpa using congrArg State.inputs h
      have hland : (landDue s.inputs s).offBus = (landDue t.inputs t).offBus := hinputs ▸ landDue_offBus s.inputs h
      have hbusy : (landDue s.inputs s).busy = (landDue t.inputs t).busy := by simpa using congrArg State.busy hland
      have hw' : (landDue s.inputs s).cfg.wedgeHangs = false := by rw [landDue_cfg, hw]
      rw [runPrims_cons hh, runPrims_cons (hhung.trans hh), hbusy]
      split
      · exact ih (by rw [primStep_cfg, hw']) (primStep_offBus hw' hland p)
      · exact hland

/-- Settles O44: the two runs end alike but for what the bus environment can reach, and no fault flag is of that. -/
theorem environmentCannotSetAFaultFlag : Obligations.EnvironmentCannotSetAFaultFlag := by
  intro i s t u levels held hw ht hu
  rw [exec_eq] at ht hu
  cases ht
  cases hu
  have h := runPrims_offBus (progOf s.cfg i) (s := s.started i) (t := State.started i { s with levels := levels, held := held }) hw rfl
  exact ⟨by simpa using congrArg State.ovf h, by simpa using congrArg State.ill h, by simpa using congrArg State.cerr h⟩

/-! ## A host that keeps its rules -/

/-- Counting down leaves a polite queue polite: it reaches no write and no read, for these wait for `BUSY = 0`. -/
theorem politeArrival_countDown {l : List Arrival} (h : ∀ e ∈ l, politeArrival e = true) :
    ∀ e ∈ countDown l, politeArrival e = true := by
  unfold countDown
  split
  · next n x rest =>
    obtain ⟨hx, hrest⟩ := List.forall_mem_cons.1 h
    refine List.forall_mem_cons.2 ⟨?_, hrest⟩
    cases x with
    | write | read => simp [politeArrival] at hx
    | reset | hold | delay => rfl
  · exact h

/-- A polite write waits for `BUSY = 0`, and where it starts no operation it goes to a data register (R200). -/
theorem politeArrival_write {after : Option Nat} {a : Nat} {v : Word} (h : politeArrival ⟨after, .write a v⟩ = true) :
    after = none ∧ (commandOf (.write a v) = none → a ≠ 0x00) := by
  simp only [politeArrival, Bool.and_eq_true, Option.isNone_iff_eq_none] at h
  refine ⟨h.1, ?_⟩
  rintro hc rfl
  cases hd : decode (cmdWord v) <;> simp [hd, commandOf] at h hc

/-- A data write raises no flag (R64). -/
theorem writeData_accessFlags (s : State) (a : Nat) (v : Word) :
    (s.writeData a v).ill = s.ill ∧ (s.writeData a v).cerr = s.cerr := by
  unfold State.writeData
  repeat' split
  all_goals exact ⟨rfl, rfl⟩

/-- A polite input that lands where it may raises neither `ILL` nor `CERR` (R62, R92). -/
theorem accept_accessFlags {s : State} {e : Arrival} (hp : politeArrival e = true) (hidle : s.busy = false → commandOf e.input = none)
    (hbusy : s.busy = true → e.after ≠ none) :
    ((s.accept e.input).ill = true → s.ill = true) ∧ ((s.accept e.input).cerr = true → s.cerr = true) := by
  obtain ⟨after, x⟩ := e
  cases x with
  | write a v =>
    obtain ⟨hafter, hdata⟩ := politeArrival_write hp
    have hb : s.busy = false := by simpa [hafter] using hbusy
    have hw : s.accept (.write a v) = s.writeData a v := by simp [State.accept, State.hostWrite, hb, hdata (hidle hb)]
    obtain ⟨hill, hcerr⟩ := writeData_accessFlags s a v
    rw [hw]
    exact ⟨hill.symm.trans, hcerr.symm.trans⟩
  | reset => exact ⟨nofun, nofun⟩
  | read | hold | delay => exact ⟨id, id⟩

/-- From `s` to `u` neither `ILL` nor `CERR` has risen, and what is still to come is polite. -/
structure StaysPolite (s u : State) : Prop where
  ill    : u.ill = true → s.ill = true
  cerr   : u.cerr = true → s.cerr = true
  inputs : ∀ e ∈ u.inputs, politeArrival e = true

/-- The next input is polite, and so is every one after it. -/
theorem StaysPolite.next {s u : State} {e : Arrival} {rest : List Arrival} (h : StaysPolite s u) (hi : u.inputs = e :: rest) :
    politeArrival e = true ∧ ∀ x ∈ rest, politeArrival x = true := List.forall_mem_cons.1 (hi ▸ h.inputs)

/-- A primitive raises neither flag, stuck or not, and leaves the queue polite. -/
theorem StaysPolite.primStep {s u : State} (h : StaysPolite s u) (p : Prim) : StaysPolite s (primStep p u) := by
  obtain ⟨hill, hcerr, -⟩ := primStep_frame p u
  refine ⟨fun hf => h.ill (hill ▸ hf), fun hf => h.cerr (hcerr ▸ hf), ?_⟩
  rcases primStep_cases p u with ⟨-, he⟩ | ⟨-, he⟩ <;> rw [he]
  · exact h.inputs
  · exact politeArrival_countDown h.inputs

/-- Settles O43: by induction over the step, in which a polite write lands on an idle block only and is no illegal command word. -/
theorem politeHostSeesNoAccessFault : Obligations.PoliteHostSeesNoAccessFault := by
  intro s t hpolite ht
  have hstay : StaysPolite s t := by
    refine step_landed_induction (P := fun _ u => StaysPolite s u) ht ⟨id, id, hpolite⟩ ?_ ?_ fun _ u p hu _ _ => hu.primStep p
    · intro _ u e rest hu hi hidle hbusy
      obtain ⟨he, hrest⟩ := hu.next hi
      obtain ⟨hill, hcerr⟩ := accept_accessFlags (s := { u with inputs := rest }) he hidle hbusy
      exact ⟨hu.ill ∘ hill, hu.cerr ∘ hcerr, by rwa [accept_inputs]⟩
    · intro _ u e rest i hu _ hi _
      exact ⟨hu.ill, hu.cerr, (hu.next hi).2⟩
  exact ⟨hstay.ill, hstay.cerr, hstay.inputs⟩

end Sys2Proof.Machine

namespace Sys2Proof.Machine

/-! ## Every operation ends -/

/-- No operation changes the configuration, whatever lands in it (R194). -/
theorem exec_cfg {i : Instr} {s t : State} (he : exec i s = .next t) : t.cfg = s.cfg :=
  exec_induction (P := fun u => u.cfg = s.cfg) he rfl
    (fun _ _ _ hu _ _ _ => (accept_cfg _ _).trans hu)
    (fun _ _ _ hu _ _ => (primStep_cfg _ _).trans hu)

/-- At `finish` the sequencer is never stuck: `BUSY` falls (R26, R133). -/
theorem primStep_finish_busy (s : State) : (primStep .finish s).busy = false := by
  rw [primStep_moves (not_sticks_of_ne (by decide) s)]
  rfl

/-- A run that has its `finish` before it ends with `BUSY = 0`, or the sequencer is stuck on the way (R26, R133, R205). -/
theorem runPrims_ends_or_hangs (ps : List Prim) : ∀ s : State, .finish ∈ ps →
    (runPrims ps s).busy = false ∨ (runPrims ps s).hung = true := by
  induction ps with
  | nil => intro s hf; simp at hf
  | cons p ps ih =>
    intro s hf
    rcases Bool.eq_false_or_eq_true s.hung with hh | hh
    · rw [runPrims_hung hh]
      exact .inr hh
    · rw [runPrims_cons hh]
      split
      · rcases List.mem_cons.1 hf with rfl | hf
        · have hb := primStep_finish_busy (landDue s.inputs s)
          rw [runPrims_idle hb]
          exact .inl hb
        · exact ih _ hf
      · next hb => exact .inl (by simpa using hb)

theorem finish_mem_progOf (c : Cfg) (i : Instr) : .finish ∈ progOf c i := by
  obtain ⟨ps, hp, -⟩ := progOf_finish c i
  simp [hp]

/-- An operation into which anything may land ends with `BUSY = 0` or stuck (R205, R133). -/
theorem exec_ends_or_hangs {i : Instr} {s t : State} (he : exec i s = .next t) : t.busy = false ∨ t.hung = true := by
  rw [exec_eq] at he
  cases he
  exact runPrims_ends_or_hangs _ _ (finish_mem_progOf s.cfg i)

/-- Only a bus operation gets stuck (R133). -/
theorem isBusOp_of_exec_hung {i : Instr} {s t : State} (he : exec i s = .next t) (hh : t.hung = true) : isBusOp i = true := by
  by_contra hbus
  rw [exec_eq] at he
  cases he
  rw [runPrims_not_hung (driveFirst_notMem_of_not_busOp (by simpa using hbus)) rfl] at hh
  cases hh

/-- On a usable line an operation in which nothing lands ends with `BUSY = 0` (R205, R133). -/
theorem exec_quiet_ends {i : Instr} {s t : State} (hq : s.quiet = true) (hu : s.lineUsable = true) (he : exec i s = .next t) :
    t.busy = false := by
  rw [exec_eq] at he
  cases he
  exact runPrims_quiet_ends _ _ (finish_mem_progOf s.cfg i) (progOf_opensOnce s.cfg i) (.inl hu) (started_running hq i)

/-- Settles O49: the run reaches its `finish` or sticks, and the invariant says what the state is then. -/
theorem everyOperationEnds : Obligations.EveryOperationEnds := by
  intro i s hi hinv hb
  have he := exec_eq i s
  generalize runPrims (progOf s.cfg i) (s.started i) = t at he
  obtain ⟨-, -, hidle, hbusy⟩ := exec_inv hi hinv hb he
  refine ⟨t, he, ?_⟩
  cases htb : t.busy with
  | false => exact ⟨.inl ⟨rfl, hidle htb⟩, fun _ => rfl⟩
  | true =>
    have hh : t.hung = true := (exec_ends_or_hangs he).resolve_left (by simp [htb])
    have hbus := isBusOp_of_exec_hung he hh
    have hstuck : t.stuck := (hbusy htb).2.resolve_left (by simp [hh])
    refine ⟨.inr ⟨rfl, hstuck, hbus⟩, ?_⟩
    rintro (hw | hnot | ⟨hq, hu⟩)
    · obtain ⟨-, hwt, -⟩ := hstuck
      rw [exec_cfg he, hw] at hwt
      cases hwt
    · rw [hbus] at hnot
      cases hnot
    · rw [exec_quiet_ends hq hu he] at htb
      cases htb

/-! ## Reset -/

theorem reset_asAfterReset : State.reset.asAfterReset := by
  have hseq : ∀ i : Fin 8, State.reset.seq[i] = 0x00 := by decide
  exact ⟨rfl, rfl, rfl, rfl, rfl, hseq, rfl, rfl, rfl, rfl, rfl, rfl, rfl, rfl, rfl⟩

/-- The block's reset leaves of the registers and the traces what `State.reset` has, whatever they were (R190). -/
theorem resetBlock_asAfterReset (s : State) : s.resetBlock.asAfterReset := reset_asAfterReset

/-- Settles O15: the reset state is as after any reset. -/
theorem resetStateHoldsTheWrittenValues : Obligations.ResetStateHoldsTheWrittenValues := reset_asAfterReset

/-- Settles O47: a reset establishes the invariant under any configuration that meets its constraints, such as the default. -/
theorem resetMeetsTheInvariant : Obligations.ResetMeetsTheInvariant :=
  resetBlock_inv (s := State.reset) (by decide)

/-- Settles O14: an idle block takes its next input, and a busy one takes it where it is due. -/
theorem resetPutsEveryRegisterBack : Obligations.ResetPutsEveryRegisterBack := by
  intro s after rest hi hwhen
  refine ⟨({ s with inputs := rest } : State).resetBlock, ?_, resetBlock_asAfterReset _, rfl, rfl⟩
  cases hb : s.busy with
  | false => exact step_idle_settled hb hi rfl
  | true =>
    rw [step_busy hb]
    refine tick_due hi ?_
    rcases hwhen with hidle | rfl | ⟨hh, hcounts⟩
    · rw [hb] at hidle
      cases hidle
    · rfl
    · obtain ⟨n, rfl⟩ := Option.ne_none_iff_exists'.1 hcounts
      simp [State.due, hh]

/-- Settles O16: the operation goes on from the reset, and an idle block runs no more of it. -/
theorem resetDuringAnOperationAbandonsIt : Obligations.ResetDuringAnOperationAbandonsIt := by
  intro i s n rest hline hi hn
  obtain ⟨u, -, -, hrest, -, -, -, he⟩ := exec_until hline hi hn
  rw [runPrims_idle rfl] at he
  exact ⟨u.resetBlock, he, resetBlock_asAfterReset u, exec_cfg he, hrest⟩

/-! ## Durations and counts -/

/-- Each operation's trace takes the time of R210. -/
theorem duration_of_isLineTrace {c : Cfg} (hc : c.wf = true) {i : Instr} {l : List LineEvent} (h : isLineTrace c i l) :
    duration l = opDuration c i := by
  cases i with
  | owrst =>
    obtain ⟨b, rfl⟩ := h
    exact duration_resetCycle c b
  | owwbit v =>
    obtain rfl := h
    exact duration_writeSlot hc _
  | owrbit =>
    obtain ⟨b, rfl⟩ := h
    exact duration_readSlot c b
  | owwbyte b =>
    obtain rfl := h
    exact duration_writeSlots hc (busBits b)
  | owrbyte =>
    obtain ⟨bits, hlen, rfl⟩ := h
    rw [duration_readSlots, hlen]
    rfl
  | _ =>
    obtain rfl := h
    rfl

/-- Slots of `n` events each. -/
theorem length_flatMap_slots {n : Nat} {slot : Bool → List LineEvent} (h : ∀ b, (slot b).length = n) (bits : List Bool) :
    (bits.flatMap slot).length = bits.length * n := by
  simp [List.length_flatMap, h]

/-- Each operation's trace has as many events as the operation has primitives of the line (R205). -/
theorem length_of_isLineTrace {c : Cfg} {i : Instr} {l : List LineEvent} (h : isLineTrace c i l) : l.length = lineCount i := by
  cases i with
  | owrst | owrbit =>
    obtain ⟨b, rfl⟩ := h
    rfl
  | owwbyte b =>
    obtain rfl := h
    exact length_flatMap_slots (n := 4) (fun _ => rfl) (busBits b)
  | owrbyte =>
    obtain ⟨bits, hlen, rfl⟩ := h
    rw [length_flatMap_slots (n := 6) (fun _ => rfl), hlen]
    rfl
  | _ =>
    obtain rfl := h
    rfl

/-- Only a `Put` appends to the sink trace (R75). -/
theorem execPrim_sink {p : Prim} (h : ∀ q, p ≠ .put q) (s : State) : (execPrim p s).sink = s.sink := by
  cases p with
  | put q => exact absurd rfl (h q)
  | encode => simp only [execPrim, State.encodeGlyphs]; split <;> rfl
  | _ => rfl

theorem primStep_sink {p : Prim} (h : ∀ q, p ≠ .put q) (s : State) : (primStep p s).sink = s.sink := by
  rcases primStep_cases p s with ⟨_, he⟩ | ⟨_, he⟩ <;> rw [he]
  · rfl
  · exact execPrim_sink h s

/-- No operation but `DPUT` has a `Put` (R162). -/
theorem put_notMem_progOf {c : Cfg} {i : Instr} (hi : i ≠ .dput) (q : Fin 8) : .put q ∉ progOf c i := by
  cases i with
  | dput => exact absurd rfl hi
  | _ =>
    simp [progOf, owrstProg, owwbitProg, owrbitProg, owwbyteProg, owrbyteProg, brevProg, cvt1Prog, cvt2Prog, encProg, writeBitProg,
      readBitProg, rounds]

/-- The induction over an operation in which nothing lands: its primitives alone decide. -/
theorem exec_quiet_induction {P : State → Prop} {i : Instr} {s t : State} (h : s.quiet = true) (he : exec i s = .next t)
    (start : P (s.started i)) (prim : ∀ u, ∀ p ∈ progOf s.cfg i, P u → P (primStep p u)) : P t := by
  have key : t.quiet = true ∧ P t := by
    refine exec_induction (P := fun u => u.quiet = true ∧ P u) he ⟨h, start⟩ ?_ ?_
    · rintro u e rest ⟨hq, _⟩ _ hin ha
      simp [State.quiet, hin, ha] at hq
    · rintro u p hp ⟨hq, hu⟩ _ _
      exact ⟨primStep_keepsQuiet hq p, prim u p hp hu⟩
  exact key.2

/-- An operation without a `Put` and in which nothing lands leaves the sink trace as it was (R75). -/
theorem exec_sink_of_ne_dput {i : Instr} (hi : i ≠ .dput) {s t : State} (h : s.quiet = true) (he : exec i s = .next t) :
    t.sink = s.sink := by
  refine exec_quiet_induction (P := fun u => u.sink = s.sink) h he rfl fun u p hp hu => ?_
  have hput : ∀ q, p ≠ .put q := fun q hpq => put_notMem_progOf hi q (hpq ▸ hp)
  exact (primStep_sink hput u).trans hu

/-- An operation in which nothing lands appends as many pairs to the sink trace as it has `Put`s (R205). -/
theorem exec_sink_length {i : Instr} {s t : State} (h : s.quiet = true) (he : exec i s = .next t) :
    ∃ p, t.sink = s.sink ++ p ∧ p.length = putCount i := by
  cases i with
  | dput =>
    rw [exec_dput_quiet h] at he
    cases he
    exact ⟨_, rfl, rfl⟩
  | _ => exact ⟨[], by rw [exec_sink_of_ne_dput (by nofun) h he, List.append_nil], rfl⟩

/-- Settles O25: what an operation appends to the line trace is a trace of its own, and to the sink trace its `Put`s. -/
theorem durationsAndPrimitiveCounts : Obligations.DurationsAndPrimitiveCounts := by
  intro i s t hwf hq hu he
  obtain ⟨l, hl, htrace⟩ := exec_isLineTrace hq hu he
  obtain ⟨p, hp, hlen⟩ := exec_sink_length hq he
  exact ⟨l, p, hl, hp, duration_of_isLineTrace hwf htrace, length_of_isLineTrace htrace, hlen⟩

end Sys2Proof.Machine
